-- ==== Sys2Proof/Word.lean ====
section
/-! DEFINITION. The value type of the core and its readings (rules R5, R6, R10 of spec/00_scope.md and spec/10_state.md). -/

namespace Sys2Proof

/-- A Word: the 32 bits that every register, every memory cell and the program counter holds (R10). -/
abbrev Word := BitVec 32

/-- The 8-bit value that `out` passes to the output port (R10, R143). -/
abbrev Byte := BitVec 8

/-- `s(v)`: the two's complement reading, −2^31 to 2^31 − 1 (R6). -/
abbrev signed (v : Word) : Int := v.toInt

/-- `u(v)`: the unsigned reading, 0 to 2^32 − 1 (R6). -/
abbrev unsigned (v : Word) : Nat := v.toNat

/-- `word(n)`: the Word whose unsigned reading is n modulo 2^32 (R6). -/
abbrev word (n : Int) : Word := BitVec.ofInt 32 n

/-- 0xFFFFFFFF, whose signed reading is −1: the pc of a Halted engine (R14, R133, R156). -/
abbrev minusOne : Word := 0xFFFFFFFF#32

/-- A register index, the content of a 5-bit field x, y or z: it names every register and nothing else (R12). -/
abbrev RegIdx := BitVec 5

/-- The shift amount of `sll`, the z field under another name, 0 to 31 (R63). -/
abbrev Shamt := BitVec 5

/-- The 22-bit immediate of `const` (R52, R63). -/
abbrev Imm22 := BitVec 22

end Sys2Proof
end

