-- ==== Sys2Proof/Config.lean ====
section
/-! DEFINITION. The implementation parameters of rule R4 (spec/00_scope.md) and the two values this model names where
the spec leaves a reset value open. -/

namespace Sys2Proof.Config

/-- `XLEN`: width of a Word (R4). -/
abbrev xlen : Nat := 32

/-- `NREG`: number of general registers (R4). -/
abbrev numRegs : Nat := 32

/-- `MEM_WORDS`: number of memory cells; valid addresses are 0 to 65535 (R4, R30). -/
abbrev memWords : Nat := 65536

/-- `ILEN`: width of every instruction, which occupies one cell (R4, R50). -/
abbrev ilen : Nat := 32

/-- `OPW`: width of the opcode field (R4). -/
abbrev opWidth : Nat := 5

/-- `RW`: width of each of the fields x, y and z (R4). -/
abbrev regWidth : Nat := 5

/-- `CW`: width of the immediate field c (R4). -/
abbrev constWidth : Nat := 22

/-- `RESET_PC`: pc after reset and load address of the program (R4, R24, R180). -/
abbrev resetPc : Word := 0#32

/-- What every general register holds in `State.reset`.
DESIGN CHOICE (log 1), unsafe: the spec gives `REG_RESET`, unspecified and never to be assumed zero (R24, R181).
`State.resetEvent` and `State.start` take any REG_RESET as an argument. -/
abbrev regReset : Word := 0#32

/-- What a memory cell that the list of `State.mem` does not name reads as.
DESIGN CHOICE (log 2), unsafe for a claim about the run from `State.reset`: the spec gives `MEM_INIT`, unspecified
(R24, R182). As a representation it loses nothing: every content of the 65536 cells is one list. -/
abbrev unlistedCell : Word := 0#32

end Sys2Proof.Config
end

