-- ==== Sys2Proof/Syntax.lean ====
section
/-! DEFINITION. The 18 instructions (rule R58 of spec/30_encoding.md, spec/opcode_table.json), one constructor per row,
with the fields the row uses. -/

namespace Sys2Proof

/-- One instruction of the srp-sim ISA. Operands stand in field order x, y, z (or s, or c), R67. -/
inductive Instr where
  /-- Opcode 1, R100. -/
  | add (x y z : RegIdx)
  /-- Opcode 2, R101. -/
  | sub (x y z : RegIdx)
  /-- Opcode 3, R102. -/
  | mul (x y z : RegIdx)
  /-- Opcode 4, R103. -/
  | div (x y z : RegIdx)
  /-- Opcode 5, R104. -/
  | mod (x y z : RegIdx)
  /-- Opcode 6, R110. -/
  | and (x y z : RegIdx)
  /-- Opcode 7, R111. -/
  | or (x y z : RegIdx)
  /-- Opcode 8, R112: logical not. -/
  | not (x y : RegIdx)
  /-- Opcode 9, R113: the one instruction of the Const shape (R52). -/
  | const (x : RegIdx) (c : Imm22)
  /-- Opcode 10, R114: the z field is the shift amount itself (R63, C5). -/
  | sll (x y : RegIdx) (sh : Shamt)
  /-- Opcode 11, R120. -/
  | load (x y : RegIdx)
  /-- Opcode 12, R121: x is the data register, y the address register. -/
  | store (x y : RegIdx)
  /-- Opcode 13, R130. -/
  | goto (x : RegIdx)
  /-- Opcode 14, R131: x holds the target. -/
  | ifeq (x y z : RegIdx)
  /-- Opcode 15, R132: x holds the target. -/
  | iflt (x y z : RegIdx)
  /-- Opcode 16, R133. -/
  | halt
  /-- Opcode 17, `in`, R140 (`in` is a word of Lean). -/
  | inp (x : RegIdx)
  /-- Opcode 18, R144. -/
  | out (x : RegIdx)
  deriving DecidableEq, Repr

end Sys2Proof
end

