-- ==== Sys2Proof/Machine/State.lean ====
section
/-! DEFINITION. The state of the core as plain data (spec/10_state.md, rules R10 to R24), the input and output streams of
its two ports (rules R21, R22, R142, R143), the two situations in which no step exists, and the state after reset. -/

namespace Sys2Proof.Machine

/-- One memory cell that is listed: its word address and its content. The cell is the smallest addressable unit and has
no bytes (R31, R34), so an entry holds a Word (log 8). -/
abbrev Cell := Nat × Word

/-- The memory of 65536 Words (R20), sparse: addresses strictly rising and below 65536, no entry equal to what an unlisted
cell reads as (`Memory.wf` in Machine/Ops.lean). -/
abbrev Memory := List Cell

/-- The complete architectural state (R11), with the input stream and the output log that R142 and R22 give the
environment (log 4). -/
structure State where
  /-- `R[0]` .. `R[31]`, none hardwired (R12, R13). -/
  regs : Vector Word 32
  /-- The program counter, read as signed: Running when it is not negative, Halted when it is (R14). -/
  pc : Word
  /-- `Mem[0]` .. `Mem[65535]`, shared by fetch, `load` and `store` (R20). -/
  mem : Memory
  /-- `FCAUSE`, the cause code of R151; 0 when there was no fault since reset (R17). -/
  fcause : BitVec 3
  /-- `FPC`, the pc at which the fault was detected (R17). -/
  fpc : Word
  /-- `FINSTR`, the faulting instruction's word, 0 for a fetch fault (R17). -/
  finstr : Word
  /-- `FINFO`, the cause-specific Word (R17). -/
  finfo : Word
  /-- The Words of the input stream that have arrived and are not consumed, oldest first (`inq`, R142). -/
  inq : List Word
  /-- The input stream is closed for ever (`inclosed`, R142). -/
  inclosed : Bool
  /-- The output stream: every byte passed to the output port, oldest first (R22, R143). -/
  outLog : List Byte
  deriving DecidableEq, Repr

/-- Why the model has no next state. Both are situations in which the spec says that no step exists; the four faults of
the hardware (R150) are not among them, since a fault is taken and gives a next state (R156). -/
inductive Fault where
  /-- Raised by `step` alone, when the engine is Halted (`s(pc) < 0`): it does nothing until reset (R81, R165).
  Safe: the hardware has no step either (log 5). -/
  | halted
  /-- Raised by the meaning of `in` alone, when no input value has arrived and the stream is open: the engine holds, it is
  Running and takes no step (R89, R141). Safe: the hardware has no step either, and the environment's move lifts it
  (log 6). -/
  | inputNotReady
  deriving DecidableEq, Repr

/-- Why an instruction has no meaning in the model. -/
inductive Refusal where
  /-- Raised by an arm of `exec` whose instruction has no meaning yet. No arm does: all 18 have one. Safe. -/
  | notModelled (mnemonic : String)
  deriving DecidableEq, Repr

/-- The machine right after reset (R24, R180): pc 0, Running, the fault-status registers 0, the output stream empty. The
registers (log 1), the memory (log 2) and the input stream (log 3) are open in the spec; the values here are the model's.
`State.start` in Machine/HostSide.lean takes them as arguments. -/
def State.reset : State :=
  { regs := Vector.replicate 32 Config.regReset
    pc := Config.resetPc
    mem := []
    fcause := 0#3
    fpc := 0#32
    finstr := 0#32
    finfo := 0#32
    inq := []
    inclosed := false
    outLog := [] }

end Sys2Proof.Machine
end

