-- ==== Sys2Proof/Machine/Ops.lean ====
section
/-! DEFINITION. The named operations on the state: register file, memory interface, program counter, the two ports, and
TAKING A FAULT as one shared operation (rule R156 of spec/60_exceptions.md). There is no return from a fault (R160): only
reset leaves Halted, and it is `State.resetEvent` in Machine/HostSide.lean. -/

namespace Sys2Proof.Machine

/-- The outcome of a step or of an instruction's meaning. -/
abbrev Result := Host.Outcome State Fault Refusal

/-! ### Register file -/

/-- `R[i]` as a source: the Word most recently written (R13). -/
def State.readReg (s : State) (i : RegIdx) : Word := s.regs[i.toNat]'(i.isLt)

/-- `R[i] <- v`; every register may be written, R[0] included (R13). -/
def State.writeReg (s : State) (i : RegIdx) (v : Word) : State :=
  { s with regs := s.regs.set i.toNat v i.isLt }

/-! ### Memory interface -/

/-- `MemRead(a, 1)`: the content of cell a (R32). The users check the range first (R33). -/
def Memory.read : Memory → Nat → Word
  | [], _ => Config.unlistedCell
  | (k, v) :: rest, a => if k = a then v else Memory.read rest a

/-- The listed cells other than a. -/
def Memory.erase (m : Memory) (a : Nat) : Memory := m.filter (fun cell => cell.1 != a)

/-- List cell a at its place by address. -/
def Memory.insert : Memory → Nat → Word → Memory
  | [], a, v => [(a, v)]
  | (k, w) :: rest, a, v => if a < k then (a, v) :: (k, w) :: rest else (k, w) :: Memory.insert rest a v

/-- `MemWrite(a, 1, v)`: replaces all 32 bits of cell a and no other cell (R32), in canonical form: writing what an
unlisted cell reads as leaves a unlisted. -/
def Memory.write (m : Memory) (a : Nat) (v : Word) : Memory :=
  if v = Config.unlistedCell then m.erase a else (m.erase a).insert a v

/-- The listed cells have strictly rising addresses from `lo` up to 65535, and none holds what an unlisted cell reads as. -/
def Memory.wfFrom : Nat → Memory → Bool
  | _, [] => true
  | lo, (k, v) :: rest =>
    decide (lo ≤ k) && decide (k < Config.memWords) && decide (v ≠ Config.unlistedCell) && Memory.wfFrom (k + 1) rest

/-- The canonical form of memory: equal memories are equal lists (`memory_ext` in Laws/Memory.lean). -/
def Memory.wf (m : Memory) : Bool := m.wfFrom 0

/-- A Word is a valid address, of data or of an instruction, when 0 ≤ s(v) ≤ 65535; never wrapped or masked
(R31, R33). -/
def validAddr (v : Word) : Bool := decide (0 ≤ signed v) && decide (signed v < Config.memWords)

/-- The cell number that a valid address names (R31). -/
def cellOf (v : Word) : Nat := (signed v).toNat

/-- The content of the cell that the Word `v` addresses. -/
def State.memRead (s : State) (v : Word) : Word := s.mem.read (cellOf v)

/-- Write the cell that the Word `v` addresses. -/
def State.memWrite (s : State) (v w : Word) : State := { s with mem := s.mem.write (cellOf v) w }

/-! ### Program counter -/

/-- `pc <- t` (R7). -/
def State.setPc (s : State) (t : Word) : State := { s with pc := t }

/-- `pc <- word(s(pc) + 1)`, the advance of a completed instruction (R85). -/
def State.advance (s : State) : State := s.setPc (word (signed s.pc + 1))

/-- `pc <- −1`: the engine is Halted, nothing else changes (R133). -/
def State.haltEngine (s : State) : State := s.setPc minusOne

/-! ### The ports -/

/-- What the input port answers to `InRead()` (R142). -/
inductive InAnswer where
  /-- The next Word of the stream; the transaction consumes it. -/
  | value (w : Word)
  /-- No value now, the stream is open. -/
  | notReady
  /-- The stream is closed and exhausted. -/
  | closed
  deriving DecidableEq, Repr

/-- `InRead()`: the head of the queue when there is one, else `Closed` when the stream is closed, else `NotReady`; only a
`Value` consumes anything (R142). -/
def State.inRead (s : State) : InAnswer × State :=
  match s.inq with
  | w :: rest => (.value w, { s with inq := rest })
  | [] => if s.inclosed then (.closed, s) else (.notReady, s)

/-- `OutWrite(b)`: appends b to the output stream, always at once (R143; log 10). -/
def State.outWrite (s : State) (b : Byte) : State := { s with outLog := s.outLog ++ [b] }

/-! ### Faults -/

/-- The four faults of the hardware (R150). -/
inductive FaultCause where
  /-- UnknownOpcodeFault (R152). -/
  | unknownOpcode
  /-- ArithmeticFault (R153). -/
  | arithmetic
  /-- MemoryFault (R154). -/
  | memory
  /-- IOFault (R155). -/
  | io
  deriving DecidableEq, Repr

/-- The cause codes (R151). -/
def FaultCause.code : FaultCause → BitVec 3
  | .unknownOpcode => 1#3
  | .arithmetic => 2#3
  | .memory => 3#3
  | .io => 4#3

/-- Fault entry (R156): record the cause, the pc at the start of the step, the instruction word and the info word, and
halt the engine, all at once; no register, cell or stream changes. -/
def State.faultEntry (s : State) (cause : FaultCause) (iw info : Word) : State :=
  { s with
    fcause := cause.code
    fpc := s.pc
    finstr := iw
    finfo := info
    pc := minusOne }

/-- `raise F(info)` inside the step of the instruction at pc. FINSTR is the word fetched from the cell at pc: a body
raises before it writes anything (R7), so the cell still holds it (DEDUCED, log 7). -/
def State.raise (s : State) (cause : FaultCause) (info : Word) : State :=
  s.faultEntry cause (s.memRead s.pc) info

/-! ### Completing an instruction -/

/-- Write the result to R[x], then advance (R85: the register write precedes the pc update). -/
def writeBack (x : RegIdx) (v : Word) (s : State) : Result := .next ((s.writeReg x v).advance)

end Sys2Proof.Machine
end

