-- ==== Sys2Proof/Machine/Flags.lean ====
section
/-! DEFINITION. The core has no flags: no instruction writes or reads one (rule R16 of spec/10_state.md). What other
hardware computes into flags, this one computes inside the instruction: the two branch conditions, the logical truth value
of `not`, and the operand check of the divider. -/

namespace Sys2Proof.Machine

/-- The condition of `ifeq`: all 32 bits equal (R131). -/
def condEq (a b : Word) : Bool := decide (a = b)

/-- The condition of `iflt`: the signed values compared directly, strictly (R132). -/
def condLt (a b : Word) : Bool := decide (signed a < signed b)

/-- Logical negation: 1 for the zero Word, 0 for every other (R112). -/
def logicalNot (a : Word) : Word := if a = 0#32 then 1#32 else 0#32

/-- The operands on which `div` and `mod` raise ArithmeticFault: a zero divisor, or −2^31 by −1 (R107). -/
def divFaults (a b : Word) : Bool :=
  decide (signed b = 0) || (decide (signed a = -(2 ^ 31)) && decide (signed b = -1))

end Sys2Proof.Machine
end

