-- ==== Sys2Proof/Machine/Operands.lean ====
section
/-! DEFINITION. Every operand form of the instruction set (rule R63 of spec/30_encoding.md): a register's content, the
22-bit immediate, the 5-bit shift amount, the register-indirect data address (R122) and the register-indirect jump target
(R134). There are no other addressing modes. -/

namespace Sys2Proof.Machine

/-- The immediate of `const`: 22 bits, zero-extended to a Word, never sign-extended (R63, R113). -/
def immediate (c : Imm22) : Word := c.zeroExtend 32

/-- The shift amount of `sll`: the 5 bits themselves, 0 to 31; no register is read (R63, R114). -/
def shiftAmount (sh : Shamt) : Nat := sh.toNat

/-- The effective address of `load` and `store`: the full content of R[y], when it is a valid address (R122). -/
def dataAddr (s : State) (y : RegIdx) : Option Word :=
  if validAddr (s.readReg y) then some (s.readReg y) else none

/-- The target of a taken transfer: the full content of R[x], when it is a valid address (R134). -/
def jumpTarget (s : State) (x : RegIdx) : Option Word :=
  if validAddr (s.readReg x) then some (s.readReg x) else none

/-- A taken transfer of control: pc <- R[x], or MemoryFault(R[x]) raised by the transfer itself when the target is not
valid (R134). -/
def transfer (x : RegIdx) (s : State) : Result :=
  match jumpTarget s x with
  | some t => .next (s.setPc t)
  | none => .next (s.raise .memory (s.readReg x))

end Sys2Proof.Machine
end

