-- ==== Sys2Proof/Machine/Arithmetic.lean ====
section
/-! DEFINITION. `add`, `sub`, `mul`, `div`, `mod` (spec/41_arithmetic.md). Exact integer arithmetic on the signed readings,
narrowed by `word` at the end (R105, R106). -/

namespace Sys2Proof.Machine

/-- The low 32 bits of the exact result of an integer operation on the two signed source registers (R105). -/
def wrapping (f : Int → Int → Int) (x y z : RegIdx) (s : State) : Result :=
  writeBack x (word (f (signed (s.readReg y)) (signed (s.readReg z)))) s

/-- The quotient rounded toward zero (R106). -/
def quotient (a b : Int) : Int := Int.tdiv a b

/-- The remainder a − q·b, which is 0 or has the sign of a (R106). -/
def remainder (a b : Int) : Int := a - quotient a b * b

/-- The divider: ArithmeticFault(R[z]) on the operands of R107, checked before the register write; else the result. -/
def divider (f : Int → Int → Int) (x y z : RegIdx) (s : State) : Result :=
  if divFaults (s.readReg y) (s.readReg z) then .next (s.raise .arithmetic (s.readReg z))
  else wrapping f x y z s

/-- `add`, R100. -/
def execAdd (x y z : RegIdx) (s : State) : Result := wrapping (fun a b => a + b) x y z s

/-- `sub`, R101: R[y] is the minuend. -/
def execSub (x y z : RegIdx) (s : State) : Result := wrapping (fun a b => a - b) x y z s

/-- `mul`, R102: the low 32 bits of the product. -/
def execMul (x y z : RegIdx) (s : State) : Result := wrapping (fun a b => a * b) x y z s

/-- `div`, R103: R[y] is the dividend. -/
def execDiv (x y z : RegIdx) (s : State) : Result := divider quotient x y z s

/-- `mod`, R104: the remainder, with the sign of the dividend. -/
def execMod (x y z : RegIdx) (s : State) : Result := divider remainder x y z s

end Sys2Proof.Machine
end

