-- ==== Sys2Proof/Machine/ControlFlow.lean ====
section
/-! DEFINITION. `goto`, `ifeq`, `iflt`, `halt` (spec/44_control_flow.md). -/

namespace Sys2Proof.Machine

/-- A conditional transfer: to R[x] when the condition holds, else pc + 1; R[x] is looked at only when taken (R134). -/
def branch (taken : Bool) (x : RegIdx) (s : State) : Result :=
  if taken then transfer x s else .next s.advance

/-- `goto`, R130. -/
def execGoto (x : RegIdx) (s : State) : Result := transfer x s

/-- `ifeq`, R131. -/
def execIfeq (x y z : RegIdx) (s : State) : Result := branch (condEq (s.readReg y) (s.readReg z)) x s

/-- `iflt`, R132. -/
def execIflt (x y z : RegIdx) (s : State) : Result := branch (condLt (s.readReg y) (s.readReg z)) x s

/-- `halt`, R133: pc <- −1; it is not a fault, FCAUSE stays as it is. -/
def execHalt (s : State) : Result := .next s.haltEngine

end Sys2Proof.Machine
end

