-- ==== Sys2Proof/Machine/InOut.lean ====
section
/-! DEFINITION. `in` and `out` (spec/45_io.md). -/

namespace Sys2Proof.Machine

/-- `in`, R140: the next Word of the input stream to R[x]; IOFault(0) when the stream is closed; while no value is
available the engine holds, and the hold is the absence of a step (R141), the outcome `inputNotReady`. -/
def execIn (x : RegIdx) (s : State) : Result :=
  match s.inRead with
  | (.value w, s') => writeBack x w s'
  | (.closed, s') => .next (s'.raise .io 0#32)
  | (.notReady, _) => .fault .inputNotReady

/-- `out`, R144: the low 8 bits of R[x] to the output stream. -/
def execOut (x : RegIdx) (s : State) : Result :=
  .next (s.outWrite ((s.readReg x).extractLsb' 0 8)).advance

end Sys2Proof.Machine
end

