-- ==== Sys2Proof/Machine/LoadStore.lean ====
section
/-! DEFINITION. `load` and `store` (spec/43_load_store.md). -/

namespace Sys2Proof.Machine

/-- `load`, R120: R[x] <- Mem[s(R[y])], or MemoryFault(R[y]) before any access (R122). -/
def execLoad (x y : RegIdx) (s : State) : Result :=
  match dataAddr s y with
  | some a => writeBack x (s.memRead a) s
  | none => .next (s.raise .memory (s.readReg y))

/-- `store`, R121: Mem[s(R[y])] <- R[x], or MemoryFault(R[y]) before any access (R122). It writes no register. -/
def execStore (x y : RegIdx) (s : State) : Result :=
  match dataAddr s y with
  | some a => .next (s.memWrite a (s.readReg x)).advance
  | none => .next (s.raise .memory (s.readReg y))

end Sys2Proof.Machine
end

