-- ==== Sys2Proof/Machine/Logic.lean ====
section
/-! DEFINITION. `and`, `or`, `not`, `const`, `sll` (spec/42_logic_const_shift.md). None can fault, none touches memory. -/

namespace Sys2Proof.Machine

/-- The bit string shifted left by n: word(u(a) × 2^n), zeros entering from the right (R114). -/
def shiftLeft (a : Word) (n : Nat) : Word := word (unsigned a * 2 ^ n : Nat)

/-- `and`, R110. -/
def execAnd (x y z : RegIdx) (s : State) : Result := writeBack x (s.readReg y &&& s.readReg z) s

/-- `or`, R111. -/
def execOr (x y z : RegIdx) (s : State) : Result := writeBack x (s.readReg y ||| s.readReg z) s

/-- `not`, R112: the logical not, 0 or 1. -/
def execNot (x y : RegIdx) (s : State) : Result := writeBack x (logicalNot (s.readReg y)) s

/-- `const`, R113. -/
def execConst (x : RegIdx) (c : Imm22) (s : State) : Result := writeBack x (immediate c) s

/-- `sll`, R114: the amount is the field, not a register. -/
def execSll (x y : RegIdx) (sh : Shamt) (s : State) : Result :=
  writeBack x (shiftLeft (s.readReg y) (shiftAmount sh)) s

end Sys2Proof.Machine
end

