-- ==== Sys2Proof/Machine/Dispatch.lean ====
section
/-! DEFINITION. The opcode dispatcher (rule R84 of spec/40_fetch_decode_dispatch.md): one arm per instruction, each one
call of its meaning. -/

namespace Sys2Proof.Machine

/-- The body of one instruction on the state at the start of its step. -/
def exec (i : Instr) (s : State) : Host.Outcome State Fault Refusal :=
  match i with
  | .add x y z => Sys2Proof.Machine.execAdd x y z s
  | .sub x y z => Sys2Proof.Machine.execSub x y z s
  | .mul x y z => Sys2Proof.Machine.execMul x y z s
  | .div x y z => Sys2Proof.Machine.execDiv x y z s
  | .mod x y z => Sys2Proof.Machine.execMod x y z s
  | .and x y z => Sys2Proof.Machine.execAnd x y z s
  | .or x y z => Sys2Proof.Machine.execOr x y z s
  | .not x y => Sys2Proof.Machine.execNot x y s
  | .const x c => Sys2Proof.Machine.execConst x c s
  | .sll x y sh => Sys2Proof.Machine.execSll x y sh s
  | .load x y => Sys2Proof.Machine.execLoad x y s
  | .store x y => Sys2Proof.Machine.execStore x y s
  | .goto x => Sys2Proof.Machine.execGoto x s
  | .ifeq x y z => Sys2Proof.Machine.execIfeq x y z s
  | .iflt x y z => Sys2Proof.Machine.execIflt x y z s
  | .halt => Sys2Proof.Machine.execHalt s
  | .inp x => Sys2Proof.Machine.execIn x s
  | .out x => Sys2Proof.Machine.execOut x s

end Sys2Proof.Machine
end

