-- ==== Sys2Proof/WellFormed.lean ====
section
/-! DEFINITION. The range checks of the Encoding Format: an encoder is defined only for arguments in range and rejects
others (rules R55, R56 of spec/30_encoding.md, decision D16). The core itself never meets an operand out of range, since
it only sees fields cut from a word (R12). -/

namespace Sys2Proof

/-- The arguments of an encoder call before any range check: plain numbers, as the two encoders of R55 and R56 take them. -/
inductive EncoderCall where
  /-- `encodeXYZ(op, x, y, z)` (R55). -/
  | xyz (op x y z : Nat)
  /-- `encodeConst(op, x, c)` (R56). -/
  | const (op x c : Nat)
  deriving DecidableEq, Repr

/-- An opcode or register argument is in range: 0 to 31 (R55, R56). -/
def fitsFive (n : Nat) : Bool := decide (n < 2 ^ Config.regWidth)

/-- An immediate argument is in range: 0 to 4194303 (R56). -/
def fitsConst (n : Nat) : Bool := decide (n < 2 ^ Config.constWidth)

/-- Every argument of the call is in range. -/
def EncoderCall.wf : EncoderCall → Bool
  | .xyz op x y z => fitsFive op && fitsFive x && fitsFive y && fitsFive z
  | .const op x c => fitsFive op && fitsFive x && fitsConst c

/-- The encoder call that the assembler makes for an instruction: the opcode of R58, the used fields in place, and 0 in
every operand position the instruction does not have (R55, R62, R67). -/
def Instr.encoderCall : Instr → EncoderCall
  | .add x y z => .xyz 1 x.toNat y.toNat z.toNat
  | .sub x y z => .xyz 2 x.toNat y.toNat z.toNat
  | .mul x y z => .xyz 3 x.toNat y.toNat z.toNat
  | .div x y z => .xyz 4 x.toNat y.toNat z.toNat
  | .mod x y z => .xyz 5 x.toNat y.toNat z.toNat
  | .and x y z => .xyz 6 x.toNat y.toNat z.toNat
  | .or x y z => .xyz 7 x.toNat y.toNat z.toNat
  | .not x y => .xyz 8 x.toNat y.toNat 0
  | .const x c => .const 9 x.toNat c.toNat
  | .sll x y sh => .xyz 10 x.toNat y.toNat sh.toNat
  | .load x y => .xyz 11 x.toNat y.toNat 0
  | .store x y => .xyz 12 x.toNat y.toNat 0
  | .goto x => .xyz 13 x.toNat 0 0
  | .ifeq x y z => .xyz 14 x.toNat y.toNat z.toNat
  | .iflt x y z => .xyz 15 x.toNat y.toNat z.toNat
  | .halt => .xyz 16 0 0 0
  | .inp x => .xyz 17 x.toNat 0 0
  | .out x => .xyz 18 x.toNat 0 0

/-- An instruction is well formed when its encoder call is in range. The fields of `Instr` carry their widths, so every
instruction is (`instr_wf` in Laws/Decode.lean): the encoding has no field value that is not an operand (R12, R61). -/
def Instr.wf (i : Instr) : Bool := i.encoderCall.wf

end Sys2Proof
end

