-- ==== Sys2Proof/Decode.lean ====
section
/-! DEFINITION. The Encoding Format (spec/30_encoding.md): the decoder, total on all 2^32 words, and the encoder after
it, both written from the field positions of rules R51 to R56 and the opcode map of rule R58. -/

namespace Sys2Proof

/-- The five fields that decode always extracts, whatever the opcode (R53). They overlap: c holds y and z (R54). -/
structure Fields where
  /-- `iw[31:27]` -/
  op : BitVec 5
  /-- `iw[26:22]` -/
  x : RegIdx
  /-- `iw[21:17]` -/
  y : RegIdx
  /-- `iw[16:12]`, alias the shift amount s -/
  z : RegIdx
  /-- `iw[21:0]` -/
  c : Imm22
  deriving DecidableEq, Repr

/-- Cut a word into its fields, the same way for every word (R53, R83). -/
def fields (iw : Word) : Fields :=
  { op := iw.extractLsb' 27 5
    x := iw.extractLsb' 22 5
    y := iw.extractLsb' 17 5
    z := iw.extractLsb' 12 5
    c := iw.extractLsb' 0 22 }

/-- Why a word is no instruction. -/
inductive DecodeError where
  /-- The opcode field is 0 or 19 to 31, an unassigned value (R60). -/
  | unknownOpcode (op : BitVec 5)
  deriving DecidableEq, Repr

/-- The opcode map (R58, R84): the operation is selected by `op` alone, and takes the fields its row uses; the other bits
are ignored (R59). Opcodes 0 and 19 to 31 are the unknown opcode case (R60). -/
def decode (iw : Word) : Except DecodeError Instr :=
  let f := fields iw
  match f.op.toNat with
  | 1 => .ok (.add f.x f.y f.z)
  | 2 => .ok (.sub f.x f.y f.z)
  | 3 => .ok (.mul f.x f.y f.z)
  | 4 => .ok (.div f.x f.y f.z)
  | 5 => .ok (.mod f.x f.y f.z)
  | 6 => .ok (.and f.x f.y f.z)
  | 7 => .ok (.or f.x f.y f.z)
  | 8 => .ok (.not f.x f.y)
  | 9 => .ok (.const f.x f.c)
  | 10 => .ok (.sll f.x f.y f.z)
  | 11 => .ok (.load f.x f.y)
  | 12 => .ok (.store f.x f.y)
  | 13 => .ok (.goto f.x)
  | 14 => .ok (.ifeq f.x f.y f.z)
  | 15 => .ok (.iflt f.x f.y f.z)
  | 16 => .ok .halt
  | 17 => .ok (.inp f.x)
  | 18 => .ok (.out f.x)
  | _ => .error (.unknownOpcode f.op)

/-- `encodeXYZ` as a bit string: op in bits 31:27, x in 26:22, y in 21:17, z in 16:12, zeros in 11:0 (R51, R55). -/
def encodeXYZ (op : BitVec 5) (x y z : BitVec 5) : Word := op ++ x ++ y ++ z ++ 0#12

/-- `encodeConst` as a bit string: op in bits 31:27, x in 26:22, c in 21:0 (R52, R56). -/
def encodeConst (op : BitVec 5) (x : RegIdx) (c : Imm22) : Word := op ++ x ++ c

/-- An encoder call with its range check: in range it gives the word, out of range it is rejected (R55, R56, D16). -/
def EncoderCall.encode (k : EncoderCall) : Option Word :=
  if k.wf then
    match k with
    | .xyz op x y z =>
      some (encodeXYZ (BitVec.ofNat 5 op) (BitVec.ofNat 5 x) (BitVec.ofNat 5 y) (BitVec.ofNat 5 z))
    | .const op x c => some (encodeConst (BitVec.ofNat 5 op) (BitVec.ofNat 5 x) (BitVec.ofNat 22 c))
  else none

/-- The canonical word of an instruction: every ignored bit zero (R62, R67). -/
def encode : Instr → Word
  | .add x y z => encodeXYZ 1#5 x y z
  | .sub x y z => encodeXYZ 2#5 x y z
  | .mul x y z => encodeXYZ 3#5 x y z
  | .div x y z => encodeXYZ 4#5 x y z
  | .mod x y z => encodeXYZ 5#5 x y z
  | .and x y z => encodeXYZ 6#5 x y z
  | .or x y z => encodeXYZ 7#5 x y z
  | .not x y => encodeXYZ 8#5 x y 0#5
  | .const x c => encodeConst 9#5 x c
  | .sll x y sh => encodeXYZ 10#5 x y sh
  | .load x y => encodeXYZ 11#5 x y 0#5
  | .store x y => encodeXYZ 12#5 x y 0#5
  | .goto x => encodeXYZ 13#5 x 0#5 0#5
  | .ifeq x y z => encodeXYZ 14#5 x y z
  | .iflt x y z => encodeXYZ 15#5 x y z
  | .halt => encodeXYZ 16#5 0#5 0#5 0#5
  | .inp x => encodeXYZ 17#5 x 0#5 0#5
  | .out x => encodeXYZ 18#5 x 0#5 0#5

/-- The first `nbits` bits of `w` as the cell's word, every bit above them 0. An instruction is one 32-bit cell with no
byte order (R34, R50), so there is nothing to lay out. -/
def tableWord (nbits w : Nat) : Word := BitVec.ofNat 32 (w % 2 ^ nbits)

/-- The instruction the decoder reads from a table word, none where it refuses it. -/
def decodeTableWord (nbits w : Nat) : Option Instr :=
  match decode (tableWord nbits w) with
  | .ok i => some i
  | .error _ => none

end Sys2Proof
end

