-- ==== Sys2Proof/Machine/Fetch.lean ====
section
/-! DEFINITION. Fetch and the two faults that belong to no instruction body: the fetch range fault (R82) and the unknown
opcode fault (R84, R152). The step in Machine/Step.lean calls these. -/

namespace Sys2Proof.Machine

/-- The engine is Halted (R14). -/
def State.isHalted (s : State) : Bool := decide (signed s.pc < 0)

/-- Fetch (R82): the current content of cell pc, or nothing when the pc has run past the last cell. Used only while
Running, so an address that is not valid is above 65535. -/
def fetch (s : State) : Option Word := if validAddr s.pc then some (s.memRead s.pc) else none

/-- MemoryFault(pc) at fetch: no word was fetched, so FINSTR is 0; FPC and FINFO are the pc (R82, R151). -/
def fetchFault (s : State) : State := s.faultEntry .memory 0#32 s.pc

/-- UnknownOpcodeFault(zext_32(op)) (R84, R152). -/
def unknownOpcodeFault (s : State) (op : BitVec 5) : State := s.raise .unknownOpcode (op.zeroExtend 32)

/-- The state with the word `iw` in the cell at pc, where the next fetch reads it; a pc that is no valid address names no
cell, and nothing changes. -/
def State.placeAtPc (s : State) (iw : Word) : State := if validAddr s.pc then s.memWrite s.pc iw else s

end Sys2Proof.Machine
end

