-- ==== Sys2Proof/Machine/Step.lean ====
section
/-! DEFINITION. The step (rule R80 of spec/40_fetch_decode_dispatch.md): fetch, decode, dispatch. The pc update is the last
action of each instruction's meaning (R85). -/

namespace Sys2Proof.Machine

/-- One step of the core (R80). Checks in the order of R158: Running, fetch range, opcode, then the instruction's own. -/
def step (s : State) : Host.Outcome State Fault Refusal :=
  if s.isHalted then .fault .halted
  else
    match fetch s with
    | none => .next (fetchFault s)
    | some iw =>
      match decode iw with
      | .error (.unknownOpcode op) => .next (unknownOpcodeFault s op)
      | .ok i => exec i s

/-- `s` with the instruction whose table word is `w` in the cell at pc, which `step` fetches next. It stands for the
host's load of a program from outside the machine (R185, log 9). -/
def State.withFetchWord (s : State) (nbits w : Nat) : State := s.placeAtPc (tableWord nbits w)

end Sys2Proof.Machine
end

