-- ==== Sys2Proof/Machine/Assembler.lean ====
section
/-! DEFINITION. The assembly language (spec/30_encoding.md rules R65 to R72), from the characters of the source text to the
words of the program image, and back to the text. It is outside the core (R3) and no step uses it. -/

namespace Sys2Proof.Machine

/-- An operand token: a register reference or a decimal literal (R66). -/
inductive Operand where
  /-- `R<n>` -/
  | reg (n : Nat)
  /-- a decimal literal -/
  | lit (n : Nat)
  deriving DecidableEq, Repr

/-- One instruction line: the mnemonic and its operands in the order written (R66, R67). -/
structure SourceLine where
  /-- The first token. -/
  mnemonic : String
  /-- The tokens after it. -/
  operands : List Operand
  deriving DecidableEq, Repr

/-- The AssemblyErrors of a source text (R68 to R70). -/
inductive AsmError where
  /-- The first token is none of the 18 mnemonics (R70). -/
  | unknownMnemonic
  /-- A token that begins with `R` and does not go on with a decimal number (R68). -/
  | malformedRegister
  /-- Any other operand token that is not a decimal number (R69). -/
  | malformedLiteral
  /-- The wrong number of operands for the mnemonic (R67, R70). -/
  | wrongOperandCount
  /-- A literal where a register is required, or the reverse (R69). -/
  | wrongOperandKind
  /-- A register number above 31, a shift amount above 31, or an immediate above 4194303 (R68, R69). -/
  | outOfRange
  deriving DecidableEq, Repr

/-! ### From a line to an instruction -/

/-- A register operand in range (R68). -/
def asReg : Operand → Except AsmError RegIdx
  | .reg n => if fitsFive n then .ok (BitVec.ofNat 5 n) else .error .outOfRange
  | .lit _ => .error .wrongOperandKind

/-- A shift amount in range (R69). -/
def asShamt : Operand → Except AsmError Shamt
  | .lit n => if fitsFive n then .ok (BitVec.ofNat 5 n) else .error .outOfRange
  | .reg _ => .error .wrongOperandKind

/-- An immediate in range (R69). -/
def asImmediate : Operand → Except AsmError Imm22
  | .lit n => if fitsConst n then .ok (BitVec.ofNat 22 n) else .error .outOfRange
  | .reg _ => .error .wrongOperandKind

/-- One operand (R67). -/
def operands1 {α : Type} (rx : Operand → Except AsmError α) (mk : α → Instr) : List Operand → Except AsmError Instr
  | [a] => do return mk (← rx a)
  | _ => .error .wrongOperandCount

/-- Two operands, x first (R67). -/
def operands2 {α β : Type} (rx : Operand → Except AsmError α) (ry : Operand → Except AsmError β) (mk : α → β → Instr) :
    List Operand → Except AsmError Instr
  | [a, b] => do return mk (← rx a) (← ry b)
  | _ => .error .wrongOperandCount

/-- Three operands, x then y then z (R67). -/
def operands3 {α β γ : Type} (rx : Operand → Except AsmError α) (ry : Operand → Except AsmError β)
    (rz : Operand → Except AsmError γ) (mk : α → β → γ → Instr) : List Operand → Except AsmError Instr
  | [a, b, c] => do return mk (← rx a) (← ry b) (← rz c)
  | _ => .error .wrongOperandCount

/-- One source line as an instruction: the 18 mnemonics, lower case, with their arity and operand order (R66, R67). -/
def assembleLine (l : SourceLine) : Except AsmError Instr :=
  match l.mnemonic with
  | "add" => operands3 asReg asReg asReg .add l.operands
  | "sub" => operands3 asReg asReg asReg .sub l.operands
  | "mul" => operands3 asReg asReg asReg .mul l.operands
  | "div" => operands3 asReg asReg asReg .div l.operands
  | "mod" => operands3 asReg asReg asReg .mod l.operands
  | "and" => operands3 asReg asReg asReg .and l.operands
  | "or" => operands3 asReg asReg asReg .or l.operands
  | "not" => operands2 asReg asReg .not l.operands
  | "const" => operands2 asReg asImmediate .const l.operands
  | "sll" => operands3 asReg asReg asShamt .sll l.operands
  | "load" => operands2 asReg asReg .load l.operands
  | "store" => operands2 asReg asReg .store l.operands
  | "goto" => operands1 asReg .goto l.operands
  | "ifeq" => operands3 asReg asReg asReg .ifeq l.operands
  | "iflt" => operands3 asReg asReg asReg .iflt l.operands
  | "halt" => if l.operands = [] then .ok .halt else .error .wrongOperandCount
  | "in" => operands1 asReg .inp l.operands
  | "out" => operands1 asReg .out l.operands
  | _ => .error .unknownMnemonic

/-! ### From characters to lines -/

/-- Split where a character satisfies `p`; the separators are dropped. -/
def splitChars (p : Char → Bool) : List Char → List (List Char)
  | [] => [[]]
  | c :: rest =>
    if p c then [] :: splitChars p rest
    else
      match splitChars p rest with
      | [] => [[c]]
      | w :: ws => (c :: w) :: ws

/-- `//` begins a comment extending to the end of the line (R65). -/
def stripComment : List Char → List Char
  | [] => []
  | [c] => [c]
  | c :: d :: rest => if c = '/' ∧ d = '/' then [] else c :: stripComment (d :: rest)

/-- Tokens are separated by spaces, tabs or commas (R66).
DESIGN CHOICE (log 13), unsafe: R65 ignores whitespace-only lines and does not say which characters are whitespace. Here a
line is blank when it holds only these three; a form feed, a vertical tab, a carriage return or any other blank is part of a
token, so a line that holds only such a character is an AssemblyError. -/
def isSeparator (c : Char) : Bool := c == ' ' || c == '\t' || c == ','

/-- The tokens of a line; none for a line that is blank once its comment is removed (R65, R66).
DESIGN CHOICE (log 13), unsafe: R66 does not say whether an empty field is an error. Here it is dropped, so adjacent, leading
and trailing commas have no effect (`add R3,,R1 R2` is `add R3 R1 R2`) and a line of commas alone is blank. -/
def tokens (line : List Char) : List (List Char) :=
  (splitChars isSeparator (stripComment line)).filter (fun t => !t.isEmpty)

/-- One more decimal digit on the right of a number. -/
def decimalStep (acc : Nat) (c : Char) : Option Nat :=
  if '0'.toNat ≤ c.toNat ∧ c.toNat ≤ '9'.toNat then some (acc * 10 + (c.toNat - '0'.toNat)) else none

/-- An unsigned decimal integer of at least one digit (R68, R69; log 13). -/
def decimal : List Char → Option Nat
  | [] => none
  | cs => cs.foldlM decimalStep 0

/-- An operand token (R66, R68, R69). -/
def operandOf : List Char → Except AsmError Operand
  | 'R' :: digits =>
    match decimal digits with
    | some n => .ok (.reg n)
    | none => .error .malformedRegister
  | digits =>
    match decimal digits with
    | some n => .ok (.lit n)
    | none => .error .malformedLiteral

/-- The tokens of one line as an instruction; the first token is the mnemonic (R66).
DESIGN CHOICE (log 13), unsafe: R70 does not say which of two errors on a line is reported. Here it is, in this order: a
malformed operand token, the leftmost (so `nop Rx` is a malformed register); an unknown mnemonic; a wrong number of operands;
an operand of the wrong kind or out of range, the leftmost. -/
def assembleTokens : List (List Char) → Except AsmError Instr
  | [] => .error .unknownMnemonic
  | m :: rest => do
    let operands ← rest.mapM operandOf
    assembleLine { mnemonic := String.ofList m, operands := operands }

/-- A source text as a program image: one word per instruction line, in source order; a failed line aborts the whole
assembly (R65, R70, R184). DESIGN CHOICE (log 13), unsafe: where several lines fail, the error is that of the first. -/
def assembleText (text : List Char) : Except AsmError (List Word) := do
  let lines := ((splitChars (fun c => c == '\n') text).map tokens).filter (fun ts => !ts.isEmpty)
  let program ← lines.mapM assembleTokens
  return program.map encode

/-! ### Disassembly -/

/-- The line of an instruction: its mnemonic and its used fields in field order (R67, R72). -/
def sourceLine : Instr → SourceLine
  | .add x y z => ⟨"add", [.reg x.toNat, .reg y.toNat, .reg z.toNat]⟩
  | .sub x y z => ⟨"sub", [.reg x.toNat, .reg y.toNat, .reg z.toNat]⟩
  | .mul x y z => ⟨"mul", [.reg x.toNat, .reg y.toNat, .reg z.toNat]⟩
  | .div x y z => ⟨"div", [.reg x.toNat, .reg y.toNat, .reg z.toNat]⟩
  | .mod x y z => ⟨"mod", [.reg x.toNat, .reg y.toNat, .reg z.toNat]⟩
  | .and x y z => ⟨"and", [.reg x.toNat, .reg y.toNat, .reg z.toNat]⟩
  | .or x y z => ⟨"or", [.reg x.toNat, .reg y.toNat, .reg z.toNat]⟩
  | .not x y => ⟨"not", [.reg x.toNat, .reg y.toNat]⟩
  | .const x c => ⟨"const", [.reg x.toNat, .lit c.toNat]⟩
  | .sll x y sh => ⟨"sll", [.reg x.toNat, .reg y.toNat, .lit sh.toNat]⟩
  | .load x y => ⟨"load", [.reg x.toNat, .reg y.toNat]⟩
  | .store x y => ⟨"store", [.reg x.toNat, .reg y.toNat]⟩
  | .goto x => ⟨"goto", [.reg x.toNat]⟩
  | .ifeq x y z => ⟨"ifeq", [.reg x.toNat, .reg y.toNat, .reg z.toNat]⟩
  | .iflt x y z => ⟨"iflt", [.reg x.toNat, .reg y.toNat, .reg z.toNat]⟩
  | .halt => ⟨"halt", []⟩
  | .inp x => ⟨"in", [.reg x.toNat]⟩
  | .out x => ⟨"out", [.reg x.toNat]⟩

/-- The line of a word with opcode 1 to 18; a word with an unassigned opcode has none (R72). -/
def disassemble (iw : Word) : Option SourceLine :=
  match decode iw with
  | .ok i => some (sourceLine i)
  | .error _ => none

/-- An operand as text: `R` and the register number, or the literal, in decimal without leading zeros (R66, R68, R69). -/
def operandText : Operand → List Char
  | .reg n => 'R' :: Nat.toDigits 10 n
  | .lit n => Nat.toDigits 10 n

/-- A line as text, the syntax row of R67: the mnemonic, then each operand after one space. -/
def lineText (l : SourceLine) : List Char := l.mnemonic.toList ++ l.operands.flatMap (fun o => ' ' :: operandText o)

/-- The text form of a word: the syntax row of its instruction with the decoded used fields filled in; ignored fields are
not printed, and a word with an unassigned opcode has none (R72). -/
def disassembleText (iw : Word) : Option (List Char) := (disassemble iw).map lineText

/-- The text of a program image, one line per word in order (R65, R72); none when some word has no text form.
DESIGN CHOICE (log 13), unsafe: every line, the last one too, is ended by a newline. -/
def disassembleProgram (program : List Word) : Option (List Char) := do
  let lines ← program.mapM disassembleText
  return lines.flatMap (fun line => line ++ ['\n'])

end Sys2Proof.Machine
end

