-- ==== Sys2Proof/Machine/HostSide.lean ====
section
/-! DEFINITION. What the world outside the core can do to it: reset, program loading and starting, the supplier of the
input port, and reading the state back (spec/70_reset_and_hazards.md rules R180 to R188, spec/45_io.md rule R142). None of
these is a move of `step`: the host acts before the run and after it (R187, log 11), the supplier between steps (R142,
log 4). -/

namespace Sys2Proof.Machine

/-! ### Reset and loading -/

/-- The register file that holds REG_RESET, one value per register (R180). -/
def registerFile (regReset : Nat → Word) : Vector Word 32 := ⟨((List.range 32).map regReset).toArray, rfl⟩

/-- Reset (R180): pc and the fault-status registers to 0, the registers to REG_RESET, and nothing else: memory keeps its
content (R182, R183), the streams belong to the environment (log 12). It may be applied in any state (R183). -/
def State.resetEvent (s : State) (regReset : Nat → Word) : State :=
  { s with
    regs := registerFile regReset
    pc := Config.resetPc
    fcause := 0#3
    fpc := 0#32
    finstr := 0#32
    finfo := 0#32 }

/-- The memory whose cells below n hold the values of a function. -/
def Memory.tabulate (f : Nat → Word) : Nat → Memory
  | 0 => []
  | n + 1 =>
    if f n = Config.unlistedCell then Memory.tabulate f n else Memory.tabulate f n ++ [(n, f n)]

/-- Write Words to consecutive cells from `a` on. -/
def Memory.writeList : Memory → Nat → List Word → Memory
  | m, _, [] => m
  | m, a, w :: rest => Memory.writeList (m.write a w) (a + 1) rest

/-- Loading (R185): Mem[k] <- PROGRAM[k] for k below n; a list longer than memory cannot be loaded (R184, U17). -/
def State.loadProgram (s : State) (program : List Word) : Option State :=
  if program.length ≤ Config.memWords then some { s with mem := s.mem.writeList 0 program } else none

/-- The state in which a run starts (R24, R186): reset and a loaded program, for any REG_RESET, MEM_INIT, PROGRAM and any
input already waiting, with the stream closed or open. -/
def State.start (regReset memInit : Nat → Word) (program input : List Word) (closed : Bool) : Option State :=
  ({ State.reset with
      mem := Memory.tabulate memInit Config.memWords
      inq := input
      inclosed := closed }.resetEvent regReset).loadProgram program

/-! ### The supplier of the input port -/

/-- A Word arrives on the input port; only while the stream is open (R142). -/
def State.supplyInput (s : State) (w : Word) : State :=
  if s.inclosed then s else { s with inq := s.inq ++ [w] }

/-- The input stream is closed, for ever; values already there stay (R142). -/
def State.closeInput (s : State) : State := { s with inclosed := true }

/-! ### Read-back -/

/-- The four fault-status registers, which the host may read at any time (R18). -/
structure FaultStatus where
  /-- `FCAUSE` -/
  cause : BitVec 3
  /-- `FPC` -/
  pc : Word
  /-- `FINSTR` -/
  instr : Word
  /-- `FINFO` -/
  info : Word
  deriving DecidableEq, Repr

/-- The host's view of the fault-status registers (R17, R18). -/
def State.faultStatus (s : State) : FaultStatus :=
  { cause := s.fcause, pc := s.fpc, instr := s.finstr, info := s.finfo }

/-- Everything the host may read once the engine is Halted; during a run it reads nothing but the fault-status registers
(R187, R188). -/
def State.readBack (s : State) : Option State := if s.isHalted then some s else none

end Sys2Proof.Machine
end

