-- ==== Sys2Proof/Safety.lean ====
section
/-! DEFINITION. The terms in which claims speak: the states of the engine, what a step leaves unchanged, what taking a
fault means, the words of an instruction, and the invariant of the machine. -/

namespace Sys2Proof.Machine

/-! ### The engine's states -/

/-- Running: s(pc) ≥ 0 (R14). -/
abbrev Running (s : State) : Prop := 0 ≤ signed s.pc

/-- Halted: s(pc) < 0 (R14). -/
abbrev Halted (s : State) : Prop := signed s.pc < 0

/-- A Word is a legal address or jump target: 0 to 65535 (R31, R134). -/
abbrev InRange (v : Word) : Prop := 0 ≤ signed v ∧ signed v ≤ 65535

/-- The pc names a cell and the word in it is instruction i: the step of `s` executes i (R80). -/
abbrev AtInstr (s : State) (i : Instr) : Prop :=
  InRange s.pc ∧ decode (s.mem.read (signed s.pc).toNat) = .ok i

/-- The one hold (R89): an `in` is next, no value has arrived and the stream is open. -/
abbrev Held (s : State) : Prop :=
  (∃ x, AtInstr s (.inp x)) ∧ s.inq = [] ∧ s.inclosed = false

/-- The run ended normally: Halted with FCAUSE = 0 (R86, R162). -/
abbrev EndedNormally (s : State) : Prop := Halted s ∧ s.fcause = 0#3

/-- The run ended by fault (R86, R162). -/
abbrev EndedByFault (s : State) : Prop := Halted s ∧ s.fcause ≠ 0#3

/-! ### What stays the same from `s` to `t` -/

/-- Every general register. -/
abbrev SameRegs (s t : State) : Prop := ∀ r, t.readReg r = s.readReg r

/-- Every cell of memory, as a read sees it. -/
abbrev SameMem (s t : State) : Prop := ∀ a, t.mem.read a = s.mem.read a

/-- The four fault-status registers. -/
abbrev SameFaultStatus (s t : State) : Prop :=
  t.fcause = s.fcause ∧ t.fpc = s.fpc ∧ t.finstr = s.finstr ∧ t.finfo = s.finfo

/-- The input stream. -/
abbrev SameInput (s t : State) : Prop := t.inq = s.inq ∧ t.inclosed = s.inclosed

/-- Both streams. -/
abbrev SameStreams (s t : State) : Prop := SameInput s t ∧ t.outLog = s.outLog

/-! ### What a completed instruction does -/

/-- The pc advances to word(s(pc) + 1) (R85). -/
abbrev Advanced (s t : State) : Prop := t.pc = word (signed s.pc + 1)

/-- R[x] holds v and every other register is as before. -/
abbrev OnlyRegWritten (x : RegIdx) (v : Word) (s t : State) : Prop :=
  t.readReg x = v ∧ ∀ r, r ≠ x → t.readReg r = s.readReg r

/-- Cell a holds v and every other cell is as before. -/
abbrev OnlyCellWritten (a : Nat) (v : Word) (s t : State) : Prop :=
  t.mem.read a = v ∧ ∀ b, b ≠ a → t.mem.read b = s.mem.read b

/-- The effect and frame of an instruction that writes one register and advances. -/
abbrev WritesRegister (x : RegIdx) (v : Word) (s t : State) : Prop :=
  OnlyRegWritten x v s t ∧ Advanced s t ∧ SameMem s t ∧ SameFaultStatus s t ∧ SameStreams s t

/-- The effect and frame of an instruction that only writes the pc. -/
abbrev OnlyPcWritten (p : Word) (s t : State) : Prop :=
  t.pc = p ∧ SameRegs s t ∧ SameMem s t ∧ SameFaultStatus s t ∧ SameStreams s t

/-- The effect and frame of fault entry with cause code `code`, instruction word `iw` and info word `info` (R156). -/
abbrev TakesFault (code : BitVec 3) (iw info : Word) (s t : State) : Prop :=
  t.fcause = code ∧ t.fpc = s.pc ∧ t.finstr = iw ∧ t.finfo = info ∧ t.pc = 0xFFFFFFFF#32 ∧
    SameRegs s t ∧ SameMem s t ∧ SameStreams s t

/-- The word in the cell at the pc, the FINSTR of a fault that an instruction takes (R151, log 7). -/
abbrev wordAtPc (s : State) : Word := s.mem.read (signed s.pc).toNat

/-! ### Runs in their environment -/

/-- What can happen next in a run: a step of the core, or a move of the input port's supplier between steps (R142, log 4). -/
inductive Move where
  /-- One step of the core; it must exist. -/
  | step
  /-- A Word arrives on the input port. -/
  | supply (w : Word)
  /-- The input stream is closed. -/
  | close
  deriving DecidableEq, Repr

/-- One move; none where it is a step that does not exist. -/
def State.move (s : State) : Move → Option State
  | .step =>
    match Machine.step s with
    | .next t => some t
    | .fault _ => none
    | .refused _ => none
  | .supply w => some (s.supplyInput w)
  | .close => some s.closeInput

/-- A sequence of moves, from the first on. -/
def State.moves (s : State) : List Move → Option State
  | [] => some s
  | m :: ms => (s.move m).bind (fun t => State.moves t ms)

/-- No step among the moves `ms` from `s` executes a `store` that addresses the cell of `p`. -/
abbrev NoStoreTo (p : Word) (ms : List Move) (s : State) : Prop :=
  ∀ (before after : List Move) (v : State), ms = before ++ .step :: after → s.moves before = some v →
    ∀ x y, AtInstr v (.store x y) → v.readReg y ≠ p

/-! ### The words of an instruction, written from the two shapes (R51, R52) with any ignored bits (R59) -/

/-- op, x, y, z and any bits 11:0. -/
abbrev wordXYZ (op x y z : BitVec 5) (low : BitVec 12) : Word := op ++ x ++ y ++ z ++ low

/-- op, x, y and any bits 16:0. -/
abbrev wordXY (op x y : BitVec 5) (low : BitVec 17) : Word := op ++ x ++ y ++ low

/-- op, x and any bits 21:0. -/
abbrev wordX (op x : BitVec 5) (low : BitVec 22) : Word := op ++ x ++ low

/-- op and any bits 26:0. -/
abbrev wordOp (op : BitVec 5) (low : BitVec 27) : Word := op ++ low

/-- A register operand of a syntax row (R67): a space, `R`, and the number in decimal. -/
abbrev regText (i : RegIdx) : List Char := ' ' :: 'R' :: Nat.toDigits 10 i.toNat

/-- A literal operand of a syntax row (R67): a space and the number in decimal. -/
abbrev literalText (n : Nat) : List Char := ' ' :: Nat.toDigits 10 n

/-- The opcode number of a word: iw[31:27] (R58). -/
abbrev opcodeNumber (iw : Word) : Nat := unsigned iw / 2 ^ 27

/-- An opcode number that is no instruction's: 0 or 19 to 31 (R60). -/
abbrev UnassignedOpcode (op : Nat) : Prop := op = 0 ∨ 19 ≤ op

/-- How many low bits of a word the instruction with this opcode ignores (R59); all 27 for an unassigned opcode, which is
unknown whatever its other bits (R60). -/
def ignoredBits (op : Nat) : Nat :=
  if op = 9 then 0
  else if op = 8 ∨ op = 11 ∨ op = 12 then 17
  else if op = 13 ∨ op = 17 ∨ op = 18 then 22
  else if op = 16 ∨ op = 0 ∨ 19 ≤ op then 27
  else 12

/-- The registers whose content an instruction may look at (R13). -/
def regsRead : Instr → List RegIdx
  | .add _ y z => [y, z]
  | .sub _ y z => [y, z]
  | .mul _ y z => [y, z]
  | .div _ y z => [y, z]
  | .mod _ y z => [y, z]
  | .and _ y z => [y, z]
  | .or _ y z => [y, z]
  | .not _ y => [y]
  | .const _ _ => []
  | .sll _ y _ => [y]
  | .load _ y => [y]
  | .store x y => [x, y]
  | .goto x => [x]
  | .ifeq x y z => [x, y, z]
  | .iflt x y z => [x, y, z]
  | .halt => []
  | .inp _ => []
  | .out x => [x]

/-- The register an instruction may write (R13). -/
def regWritten : Instr → Option RegIdx
  | .add x _ _ => some x
  | .sub x _ _ => some x
  | .mul x _ _ => some x
  | .div x _ _ => some x
  | .mod x _ _ => some x
  | .and x _ _ => some x
  | .or x _ _ => some x
  | .not x _ => some x
  | .const x _ => some x
  | .sll x _ _ => some x
  | .load x _ => some x
  | .store _ _ => none
  | .goto _ => none
  | .ifeq _ _ _ => none
  | .iflt _ _ _ => none
  | .halt => none
  | .inp x => some x
  | .out _ => none

/-! ### The invariant -/

/-- The fault record names an instruction that stands in memory: FPC is an address and FINSTR the word there. -/
abbrev RecordAtCell (s : State) : Prop := InRange s.fpc ∧ s.finstr = s.mem.read (signed s.fpc).toNat

/-- The fault-status registers hold one of the rows of R151's table. -/
def LegalFaultRecord (s : State) : Prop :=
  (s.fcause = 0#3 ∧ s.fpc = 0#32 ∧ s.finstr = 0#32 ∧ s.finfo = 0#32) ∨
  (s.fcause = 1#3 ∧ RecordAtCell s ∧ UnassignedOpcode (opcodeNumber s.finstr) ∧
    unsigned s.finfo = opcodeNumber s.finstr) ∨
  (s.fcause = 2#3 ∧ RecordAtCell s ∧ (opcodeNumber s.finstr = 4 ∨ opcodeNumber s.finstr = 5) ∧
    (s.finfo = 0#32 ∨ s.finfo = 0xFFFFFFFF#32)) ∨
  (s.fcause = 3#3 ∧ s.fpc = 0x00010000#32 ∧ s.finstr = 0#32 ∧ s.finfo = 0x00010000#32) ∨
  (s.fcause = 3#3 ∧ RecordAtCell s ∧ 11 ≤ opcodeNumber s.finstr ∧ opcodeNumber s.finstr ≤ 15 ∧ ¬ InRange s.finfo) ∨
  (s.fcause = 4#3 ∧ RecordAtCell s ∧ opcodeNumber s.finstr = 17 ∧ s.finfo = 0#32)

/-- What every reachable state satisfies. -/
structure Inv (s : State) : Prop where
  /-- Memory is in its canonical form. -/
  memory : s.mem.wf = true
  /-- The only values of s(pc) are −1 and 0 to 65536 (R15). -/
  pc : s.pc = 0xFFFFFFFF#32 ∨ (0 ≤ signed s.pc ∧ signed s.pc ≤ 65536)
  /-- The fault-status registers hold a row of R151's table. -/
  record : LegalFaultRecord s
  /-- A recorded fault has halted the engine (R18, R156). -/
  halts : s.fcause ≠ 0#3 → s.pc = 0xFFFFFFFF#32

end Sys2Proof.Machine
end

