-- ==== Sys2Proof/Certificates/Slice0/Obligations.lean ====
section
/-! DEFINITION. The statements about the srp-sim core for the provers. Each docstring names the rules of spec/ it formalises;
the vocabulary (`AtInstr`, `WritesRegister`, `TakesFault`, `Inv`, …) is that of Sys2Proof/Safety.lean. -/

open Sys2Proof Sys2Proof.Machine

/-! ### Encoding and decoding -/

/-- Decode and encode agree, for every instruction with every operand value (R55 to R58, R62). -/
def Obligations.DecodeOfEncodeIsIdentity : Prop :=
  ∀ i : Instr, i.wf = true ∧ decode (encode i) = .ok i

/-- The round trips of the five fields with both shapes, in both directions (R57). -/
def Obligations.FieldsRoundTripBothShapes : Prop :=
  (∀ op x y z : BitVec 5,
    (fields (encodeXYZ op x y z)).op = op ∧ (fields (encodeXYZ op x y z)).x = x ∧
    (fields (encodeXYZ op x y z)).y = y ∧ (fields (encodeXYZ op x y z)).z = z ∧
    (fields (encodeXYZ op x y z)).c.toNat = y.toNat * 2 ^ 17 + z.toNat * 2 ^ 12) ∧
  (∀ (op x : BitVec 5) (c : Imm22),
    (fields (encodeConst op x c)).op = op ∧ (fields (encodeConst op x c)).x = x ∧
    (fields (encodeConst op x c)).c = c ∧
    (fields (encodeConst op x c)).y.toNat = c.toNat / 2 ^ 17 ∧
    (fields (encodeConst op x c)).z.toNat = c.toNat / 2 ^ 12 % 2 ^ 5) ∧
  (∀ iw : Word,
    (encodeXYZ (fields iw).op (fields iw).x (fields iw).y (fields iw).z = iw ↔ iw.toNat % 2 ^ 12 = 0) ∧
    encodeConst (fields iw).op (fields iw).x (fields iw).c = iw)

/-- The refused words are exactly those below 0x08000000 and from 0x98000000 on, and the refusal names their opcode; every
other word is an instruction (R60, R61). -/
def Obligations.RefusedWordsAreTheUnassignedOnes : Prop :=
  ∀ iw : Word,
    ((unsigned iw < 0x08000000 ∨ 0x98000000 ≤ unsigned iw) →
      ∃ op : BitVec 5, decode iw = .error (.unknownOpcode op) ∧ op.toNat = opcodeNumber iw ∧ UnassignedOpcode op.toNat) ∧
    (¬ (unsigned iw < 0x08000000 ∨ 0x98000000 ≤ unsigned iw) → ∃ i, decode iw = .ok i)

/-- The two encoders as numbers, defined exactly for arguments in range; the assembler's call for an instruction gives its
canonical word (R55, R56). -/
def Obligations.EncoderAcceptsExactlyTheRange : Prop :=
  (∀ op x y z : Nat, (EncoderCall.xyz op x y z).encode =
    if op ≤ 31 ∧ x ≤ 31 ∧ y ≤ 31 ∧ z ≤ 31 then
      some (BitVec.ofNat 32 (op * 2 ^ 27 + x * 2 ^ 22 + y * 2 ^ 17 + z * 2 ^ 12)) else none) ∧
  (∀ op x c : Nat, (EncoderCall.const op x c).encode =
    if op ≤ 31 ∧ x ≤ 31 ∧ c ≤ 4194303 then
      some (BitVec.ofNat 32 (op * 2 ^ 27 + x * 2 ^ 22 + c)) else none) ∧
  (∀ i : Instr, i.encoderCall.encode = some (encode i))

/-- Two words that differ only in the bits their opcode ignores are the same instruction, or are both refused (R59, R60). -/
def Obligations.IgnoredBitsSelectNothing : Prop :=
  ∀ v w : Word,
    unsigned v / 2 ^ ignoredBits (opcodeNumber v) = unsigned w / 2 ^ ignoredBits (opcodeNumber v) →
    decode v = decode w

/-- A few words of spec/95_test_vectors.md part 2.1 decode to the instructions it lists. -/
def Obligations.ListedWordsDecodeAsListed : Prop :=
  decode 0x08C22FFF#32 = .ok (.add 3 1 2) ∧ decode 0x49FFFFFF#32 = .ok (.const 7 4194303) ∧
  decode 0x5043B000#32 = .ok (.sll 1 1 27) ∧ decode 0x60820000#32 = .ok (.store 2 1) ∧
  decode 0x79022000#32 = .ok (.iflt 4 1 2) ∧ decode 0x87FFFFFF#32 = .ok .halt ∧
  decode 0x97FFFFFF#32 = .ok (.out 31) ∧ decode 0x9FC00000#32 = .error (.unknownOpcode 19)

/-- Disassembling a word to a line and assembling the line gives an operationally equivalent word; a word has no line exactly
when its opcode is unassigned (R72). The characters of the line are in `TextFormIsTheSyntaxRow`. -/
def Obligations.DisassemblyAssemblesBack : Prop :=
  (∀ (iw : Word) (l : SourceLine), disassemble iw = some l →
    ∃ i, assembleLine l = .ok i ∧ decode (encode i) = decode iw) ∧
  (∀ iw : Word, disassemble iw = none ↔ UnassignedOpcode (opcodeNumber iw))

/-- The text form of every word is the syntax row of its instruction with the decoded used fields filled in, in decimal, and
its ignored bits are not printed; a word with an unassigned opcode has no text form (R72, the rows of R67). -/
def Obligations.TextFormIsTheSyntaxRow : Prop :=
  (∀ (x y z : RegIdx) (low : BitVec 12),
    disassembleText (wordXYZ 1#5 x y z low) = some ("add".toList ++ regText x ++ regText y ++ regText z) ∧
    disassembleText (wordXYZ 2#5 x y z low) = some ("sub".toList ++ regText x ++ regText y ++ regText z) ∧
    disassembleText (wordXYZ 3#5 x y z low) = some ("mul".toList ++ regText x ++ regText y ++ regText z) ∧
    disassembleText (wordXYZ 4#5 x y z low) = some ("div".toList ++ regText x ++ regText y ++ regText z) ∧
    disassembleText (wordXYZ 5#5 x y z low) = some ("mod".toList ++ regText x ++ regText y ++ regText z) ∧
    disassembleText (wordXYZ 6#5 x y z low) = some ("and".toList ++ regText x ++ regText y ++ regText z) ∧
    disassembleText (wordXYZ 7#5 x y z low) = some ("or".toList ++ regText x ++ regText y ++ regText z) ∧
    disassembleText (wordXYZ 10#5 x y z low) = some ("sll".toList ++ regText x ++ regText y ++ literalText z.toNat) ∧
    disassembleText (wordXYZ 14#5 x y z low) = some ("ifeq".toList ++ regText x ++ regText y ++ regText z) ∧
    disassembleText (wordXYZ 15#5 x y z low) = some ("iflt".toList ++ regText x ++ regText y ++ regText z)) ∧
  (∀ (x y : RegIdx) (low : BitVec 17),
    disassembleText (wordXY 8#5 x y low) = some ("not".toList ++ regText x ++ regText y) ∧
    disassembleText (wordXY 11#5 x y low) = some ("load".toList ++ regText x ++ regText y) ∧
    disassembleText (wordXY 12#5 x y low) = some ("store".toList ++ regText x ++ regText y)) ∧
  (∀ (x : RegIdx) (low : BitVec 22),
    disassembleText (wordX 9#5 x low) = some ("const".toList ++ regText x ++ literalText low.toNat) ∧
    disassembleText (wordX 13#5 x low) = some ("goto".toList ++ regText x) ∧
    disassembleText (wordX 17#5 x low) = some ("in".toList ++ regText x) ∧
    disassembleText (wordX 18#5 x low) = some ("out".toList ++ regText x)) ∧
  (∀ low : BitVec 27, disassembleText (wordOp 16#5 low) = some "halt".toList) ∧
  (∀ iw : Word, disassembleText iw = none ↔ UnassignedOpcode (opcodeNumber iw))

/-- An image has a source text unless one of its words has an unassigned opcode: R72 gives every other word a text form. That
an image's text is the text of its words, line by line, is the model's choice (log 13). -/
def Obligations.ImageHasTextUnlessAWordIsUnassigned : Prop :=
  ∀ program : List Word,
    disassembleProgram program = none ↔ ∃ iw ∈ program, UnassignedOpcode (opcodeNumber iw)

/-- Disassembling an image to source text and assembling that text gives an operationally equivalent instruction stream: as
many words, each with the same opcode and used fields (R72). The format of the image's text, one line per word and a newline
after each, is the model's choice (DESIGN CHOICE, log 13); `ImageHasTextUnlessAWordIsUnassigned` says when there is one. -/
def Obligations.DisassembledTextAssemblesBack : Prop :=
  ∀ (program : List Word) (text : List Char), disassembleProgram program = some text →
    ∃ image, assembleText text = .ok image ∧ image.map decode = program.map decode

/-! ### The step -/

/-- A step runs the decoded instruction: nothing is added around its body (R80, R84, R85). -/
def Obligations.StepRunsDecodedInstruction : Prop :=
  ∀ (s : State) (i : Instr), AtInstr s i → step s = exec i s

/-- No step exists exactly in the Halted state (R81). -/
def Obligations.HaltedEngineHasNoStep : Prop :=
  ∀ s : State, step s = .fault .halted ↔ Halted s

/-- Fetch and its range check: past the last cell the step takes MemoryFault(pc) with no instruction word; otherwise the
word is the current content of cell pc; and the pc gets past the last cell only by advancing from it (R82). -/
def Obligations.FetchPastLastCellFaults : Prop :=
  (∀ s : State, 65535 < signed s.pc → ∃ t, step s = .next t ∧ TakesFault 3#3 0#32 s.pc s t) ∧
  (∀ s : State, InRange s.pc → fetch s = some (s.mem.read (signed s.pc).toNat)) ∧
  (∀ s t : State, InRange s.pc → step s = .next t → 65535 < signed t.pc → signed s.pc = 65535 ∧ signed t.pc = 65536)

/-- A word with an unassigned opcode takes UnknownOpcodeFault with the opcode value, whatever its other bits (R152). -/
def Obligations.UnassignedOpcodeFaults : Prop :=
  ∀ s : State, InRange s.pc → UnassignedOpcode (opcodeNumber (wordAtPc s)) →
    ∃ t, step s = .next t ∧ TakesFault 1#3 (wordAtPc s) (BitVec.ofNat 32 (opcodeNumber (wordAtPc s))) s t

/-- A Running engine always has a step but in the one hold; a value on the input port or closing the stream lifts it (R89). -/
def Obligations.OnlyInWithoutInputHolds : Prop :=
  (∀ s : State, Held s → step s = .fault .inputNotReady) ∧
  (∀ s : State, Running s → ¬ Held s → ∃ t, step s = .next t) ∧
  (∀ (s : State) (x : RegIdx) (w : Word), AtInstr s (.inp x) → s.inq = [] → s.inclosed = false →
    ∃ t, step (s.supplyInput w) = .next t ∧ OnlyRegWritten x w s t ∧ Advanced s t ∧ t.inq = []) ∧
  (∀ (s : State) (x : RegIdx), AtInstr s (.inp x) → s.inq = [] → s.inclosed = false →
    ∃ t, step s.closeInput = .next t ∧ TakesFault 4#3 (wordAtPc s) 0#32 s.closeInput t)

/-! ### Arithmetic -/

/-- `add` (R100). -/
def Obligations.AddWritesWrappedSum : Prop :=
  (∀ (x y z : RegIdx) (low : BitVec 12), decode (wordXYZ 1#5 x y z low) = .ok (.add x y z)) ∧
  ∀ (x y z : RegIdx) (s : State), ∃ t, exec (.add x y z) s = .next t ∧
    WritesRegister x (word (signed (s.readReg y) + signed (s.readReg z))) s t

/-- `sub` (R101). -/
def Obligations.SubWritesWrappedDifference : Prop :=
  (∀ (x y z : RegIdx) (low : BitVec 12), decode (wordXYZ 2#5 x y z low) = .ok (.sub x y z)) ∧
  ∀ (x y z : RegIdx) (s : State), ∃ t, exec (.sub x y z) s = .next t ∧
    WritesRegister x (word (signed (s.readReg y) - signed (s.readReg z))) s t

/-- `mul` (R102). -/
def Obligations.MulWritesLowProduct : Prop :=
  (∀ (x y z : RegIdx) (low : BitVec 12), decode (wordXYZ 3#5 x y z low) = .ok (.mul x y z)) ∧
  ∀ (x y z : RegIdx) (s : State), ∃ t, exec (.mul x y z) s = .next t ∧
    WritesRegister x (word (signed (s.readReg y) * signed (s.readReg z))) s t

/-- `div` (R103): the quotient rounded toward zero, or ArithmeticFault(R[z]). -/
def Obligations.DivWritesTruncatedQuotient : Prop :=
  (∀ (x y z : RegIdx) (low : BitVec 12), decode (wordXYZ 4#5 x y z low) = .ok (.div x y z)) ∧
  ∀ (x y z : RegIdx) (s : State),
    (signed (s.readReg z) ≠ 0 → ¬ (signed (s.readReg y) = -2147483648 ∧ signed (s.readReg z) = -1) →
      ∃ t, exec (.div x y z) s = .next t ∧
        WritesRegister x (word (Int.tdiv (signed (s.readReg y)) (signed (s.readReg z)))) s t) ∧
    (signed (s.readReg z) = 0 ∨ (signed (s.readReg y) = -2147483648 ∧ signed (s.readReg z) = -1) →
      ∃ t, exec (.div x y z) s = .next t ∧ TakesFault 2#3 (wordAtPc s) (s.readReg z) s t)

/-- `mod` (R104): the remainder a − trunc(a / b) × b, or ArithmeticFault(R[z]). -/
def Obligations.ModWritesRemainder : Prop :=
  (∀ (x y z : RegIdx) (low : BitVec 12), decode (wordXYZ 5#5 x y z low) = .ok (.mod x y z)) ∧
  ∀ (x y z : RegIdx) (s : State),
    (signed (s.readReg z) ≠ 0 → ¬ (signed (s.readReg y) = -2147483648 ∧ signed (s.readReg z) = -1) →
      ∃ t, exec (.mod x y z) s = .next t ∧
        WritesRegister x (word (signed (s.readReg y) -
          Int.tdiv (signed (s.readReg y)) (signed (s.readReg z)) * signed (s.readReg z))) s t) ∧
    (signed (s.readReg z) = 0 ∨ (signed (s.readReg y) = -2147483648 ∧ signed (s.readReg z) = -1) →
      ∃ t, exec (.mod x y z) s = .next t ∧ TakesFault 2#3 (wordAtPc s) (s.readReg z) s t)

/-- The division law (R106): the values that `div` and `mod` leave, read as signed, are q = trunc(a / b) and the r with
a = q·b + r, |r| < |b|, and r zero or of the sign of a. No wrap happens. -/
def Obligations.QuotientAndRemainderLaw : Prop :=
  ∀ (x x' y z : RegIdx) (s t t' : State),
    signed (s.readReg z) ≠ 0 → ¬ (signed (s.readReg y) = -2147483648 ∧ signed (s.readReg z) = -1) →
    exec (.div x y z) s = .next t → exec (.mod x' y z) s = .next t' →
    signed (t.readReg x) = Int.tdiv (signed (s.readReg y)) (signed (s.readReg z)) ∧
    signed (s.readReg y) = signed (t.readReg x) * signed (s.readReg z) + signed (t'.readReg x') ∧
    (signed (t'.readReg x')).natAbs < (signed (s.readReg z)).natAbs ∧
    (signed (t'.readReg x') = 0 ∨ (0 < signed (t'.readReg x') ↔ 0 < signed (s.readReg y)))

/-- Wrap-around (R105): the result of `add`, `sub` and `mul` is the exact result modulo 2^32, from the signed operands and
equally from the unsigned ones, and no fault is recorded. -/
def Obligations.WrapIsTheSameUnsigned : Prop :=
  ∀ (x y z : RegIdx) (s : State),
    (∃ t, exec (.add x y z) s = .next t ∧ t.readReg x = word (signed (s.readReg y) + signed (s.readReg z)) ∧
      t.readReg x = word ((unsigned (s.readReg y) : Int) + unsigned (s.readReg z)) ∧ SameFaultStatus s t) ∧
    (∃ t, exec (.sub x y z) s = .next t ∧ t.readReg x = word (signed (s.readReg y) - signed (s.readReg z)) ∧
      t.readReg x = word ((unsigned (s.readReg y) : Int) - unsigned (s.readReg z)) ∧ SameFaultStatus s t) ∧
    (∃ t, exec (.mul x y z) s = .next t ∧ t.readReg x = word (signed (s.readReg y) * signed (s.readReg z)) ∧
      t.readReg x = word ((unsigned (s.readReg y) : Int) * unsigned (s.readReg z)) ∧ SameFaultStatus s t)

/-! ### Logic, constant, shift -/

/-- `and` (R110). -/
def Obligations.AndWritesBitwiseAnd : Prop :=
  (∀ (x y z : RegIdx) (low : BitVec 12), decode (wordXYZ 6#5 x y z low) = .ok (.and x y z)) ∧
  ∀ (x y z : RegIdx) (s : State), ∃ t, exec (.and x y z) s = .next t ∧
    WritesRegister x (s.readReg y &&& s.readReg z) s t ∧
    ∀ k < 32, (t.readReg x).getLsbD k = ((s.readReg y).getLsbD k && (s.readReg z).getLsbD k)

/-- `or` (R111). -/
def Obligations.OrWritesBitwiseOr : Prop :=
  (∀ (x y z : RegIdx) (low : BitVec 12), decode (wordXYZ 7#5 x y z low) = .ok (.or x y z)) ∧
  ∀ (x y z : RegIdx) (s : State), ∃ t, exec (.or x y z) s = .next t ∧
    WritesRegister x (s.readReg y ||| s.readReg z) s t ∧
    ∀ k < 32, (t.readReg x).getLsbD k = ((s.readReg y).getLsbD k || (s.readReg z).getLsbD k)

/-- `not` (R112): logical, 0 or 1. -/
def Obligations.NotWritesTruthValue : Prop :=
  (∀ (x y : RegIdx) (low : BitVec 17), decode (wordXY 8#5 x y low) = .ok (.not x y)) ∧
  ∀ (x y : RegIdx) (s : State), ∃ t, exec (.not x y) s = .next t ∧
    WritesRegister x (if s.readReg y = 0x00000000#32 then 0x00000001#32 else 0x00000000#32) s t

/-- `const` (R113): the 22 bits, zero-extended; no bit of the word is ignored. -/
def Obligations.ConstWritesZeroExtended : Prop :=
  (∀ (x : RegIdx) (c : Imm22), decode (wordX 9#5 x c) = .ok (.const x c)) ∧
  ∀ (x : RegIdx) (c : Imm22) (s : State), ∃ t, exec (.const x c) s = .next t ∧
    WritesRegister x (BitVec.ofNat 32 c.toNat) s t ∧ unsigned (t.readReg x) = c.toNat ∧ signed (t.readReg x) = c.toNat

/-- `sll` (R114): u(R[y]) × 2^s modulo 2^32, that is R[y][31−s:0] followed by s zeros. -/
def Obligations.SllWritesShiftedWord : Prop :=
  (∀ (x y : RegIdx) (sh : Shamt) (low : BitVec 12), decode (wordXYZ 10#5 x y sh low) = .ok (.sll x y sh)) ∧
  ∀ (x y : RegIdx) (sh : Shamt) (s : State), ∃ t, exec (.sll x y sh) s = .next t ∧
    WritesRegister x (BitVec.ofNat 32 (unsigned (s.readReg y) * 2 ^ sh.toNat)) s t ∧
    ∀ k < 32, (t.readReg x).getLsbD k = (decide (sh.toNat ≤ k) && (s.readReg y).getLsbD (k - sh.toNat))

/-! ### Load and store -/

/-- `load` (R120): R[x] <- Mem[s(R[y])], or MemoryFault(R[y]). -/
def Obligations.LoadReadsAddressedCell : Prop :=
  (∀ (x y : RegIdx) (low : BitVec 17), decode (wordXY 11#5 x y low) = .ok (.load x y)) ∧
  ∀ (x y : RegIdx) (s : State),
    (InRange (s.readReg y) → ∃ t, exec (.load x y) s = .next t ∧
      WritesRegister x (s.mem.read (signed (s.readReg y)).toNat) s t) ∧
    (¬ InRange (s.readReg y) → ∃ t, exec (.load x y) s = .next t ∧
      TakesFault 3#3 (wordAtPc s) (s.readReg y) s t)

/-- `store` (R121): Mem[s(R[y])] <- R[x] and no other cell, no register, or MemoryFault(R[y]). -/
def Obligations.StoreWritesAddressedCell : Prop :=
  (∀ (x y : RegIdx) (low : BitVec 17), decode (wordXY 12#5 x y low) = .ok (.store x y)) ∧
  ∀ (x y : RegIdx) (s : State),
    (InRange (s.readReg y) → ∃ t, exec (.store x y) s = .next t ∧
      OnlyCellWritten (signed (s.readReg y)).toNat (s.readReg x) s t ∧
      Advanced s t ∧ SameRegs s t ∧ SameFaultStatus s t ∧ SameStreams s t) ∧
    (¬ InRange (s.readReg y) → ∃ t, exec (.store x y) s = .next t ∧
      TakesFault 3#3 (wordAtPc s) (s.readReg y) s t)

/-- The fetch right after a store (from R41): after a store at pc to cell R[y], the next fetch, from whatever address the pc
is at, reads the new Word in that cell and the old Word in every other; the executing store itself completes. Later fetches
are in `EveryLaterFetchSeesTheStore`. -/
def Obligations.LaterFetchesSeeTheStore : Prop :=
  ∀ (s : State) (x y : RegIdx), AtInstr s (.store x y) → InRange (s.readReg y) →
    ∃ t, step s = .next t ∧ Advanced s t ∧
      ∀ p : Word, InRange p → fetch (t.setPc p) = some (if p = s.readReg y then s.readReg x else s.mem.read (signed p).toNat)

/-- Instruction-fetch coherence (R41), along every run: a store at pc to cell R[y] completes and advances, and after any
further moves, steps of the core with the supplier's moves between them, a fetch at p reads the new Word when p is R[y] (the
store's own cell and the next one included) and the Word from before the store otherwise, as long as no later step has
stored to the cell of p. -/
def Obligations.EveryLaterFetchSeesTheStore : Prop :=
  ∀ (s : State) (x y : RegIdx), AtInstr s (.store x y) → InRange (s.readReg y) →
    ∃ t, step s = .next t ∧ Advanced s t ∧
      ∀ (ms : List Move) (u : State) (p : Word), t.moves ms = some u → InRange p → NoStoreTo p ms t →
        fetch (u.setPc p) = some (if p = s.readReg y then s.readReg x else s.mem.read (signed p).toNat)

/-! ### Control flow -/

/-- `goto` (R130): pc <- R[x], or MemoryFault(R[x]). -/
def Obligations.GotoSetsPc : Prop :=
  (∀ (x : RegIdx) (low : BitVec 22), decode (wordX 13#5 x low) = .ok (.goto x)) ∧
  ∀ (x : RegIdx) (s : State),
    (InRange (s.readReg x) → ∃ t, exec (.goto x) s = .next t ∧ OnlyPcWritten (s.readReg x) s t) ∧
    (¬ InRange (s.readReg x) → ∃ t, exec (.goto x) s = .next t ∧ TakesFault 3#3 (wordAtPc s) (s.readReg x) s t)

/-- `ifeq` (R131): taken when the two Words are equal; the target is checked only when taken. -/
def Obligations.IfeqBranchesOnEqual : Prop :=
  (∀ (x y z : RegIdx) (low : BitVec 12), decode (wordXYZ 14#5 x y z low) = .ok (.ifeq x y z)) ∧
  ∀ (x y z : RegIdx) (s : State),
    (s.readReg y = s.readReg z → InRange (s.readReg x) →
      ∃ t, exec (.ifeq x y z) s = .next t ∧ OnlyPcWritten (s.readReg x) s t) ∧
    (s.readReg y = s.readReg z → ¬ InRange (s.readReg x) →
      ∃ t, exec (.ifeq x y z) s = .next t ∧ TakesFault 3#3 (wordAtPc s) (s.readReg x) s t) ∧
    (s.readReg y ≠ s.readReg z →
      ∃ t, exec (.ifeq x y z) s = .next t ∧ OnlyPcWritten (word (signed s.pc + 1)) s t)

/-- `iflt` (R132): taken when s(R[y]) < s(R[z]), signed and strict; the target is checked only when taken. -/
def Obligations.IfltBranchesOnSignedLess : Prop :=
  (∀ (x y z : RegIdx) (low : BitVec 12), decode (wordXYZ 15#5 x y z low) = .ok (.iflt x y z)) ∧
  ∀ (x y z : RegIdx) (s : State),
    (signed (s.readReg y) < signed (s.readReg z) → InRange (s.readReg x) →
      ∃ t, exec (.iflt x y z) s = .next t ∧ OnlyPcWritten (s.readReg x) s t) ∧
    (signed (s.readReg y) < signed (s.readReg z) → ¬ InRange (s.readReg x) →
      ∃ t, exec (.iflt x y z) s = .next t ∧ TakesFault 3#3 (wordAtPc s) (s.readReg x) s t) ∧
    (¬ signed (s.readReg y) < signed (s.readReg z) →
      ∃ t, exec (.iflt x y z) s = .next t ∧ OnlyPcWritten (word (signed s.pc + 1)) s t)

/-- `halt` (R133): pc <- −1 and nothing else, no fault recorded; the engine takes no further step. -/
def Obligations.HaltStopsTheEngine : Prop :=
  (∀ low : BitVec 27, decode (wordOp 16#5 low) = .ok .halt) ∧
  ∀ s : State, ∃ t, exec .halt s = .next t ∧ OnlyPcWritten 0xFFFFFFFF#32 s t ∧ signed t.pc = -1 ∧
    step t = .fault .halted

/-- The pc update (R85): a step leaves the pc at word(s(pc) + 1), or at an in-range R[x] by a transfer, or at −1 by `halt`
or by fault entry, and by nothing else. -/
def Obligations.PcHasThreeUpdates : Prop :=
  ∀ s t : State, step s = .next t →
    (∃ i, AtInstr s i ∧ i ≠ .halt ∧ (∀ x, i ≠ .goto x) ∧ Advanced s t) ∨
    (∃ i x, AtInstr s i ∧ (i = .goto x ∨ ∃ y z, i = .ifeq x y z ∨ i = .iflt x y z) ∧
      InRange (s.readReg x) ∧ t.pc = s.readReg x) ∨
    (AtInstr s .halt ∧ t.pc = 0xFFFFFFFF#32) ∨
    (∃ c iw info, t = s.faultEntry c iw info ∧ t.pc = 0xFFFFFFFF#32)

/-! ### Input and output -/

/-- The input port (R142): its three answers and what each consumes; Words are appended only while the stream is open, and
closing is permanent. -/
def Obligations.InputPortAnswers : Prop :=
  (∀ (s : State) (w : Word) (rest : List Word), s.inq = w :: rest →
    s.inRead.1 = .value w ∧ s.inRead.2 = { s with inq := rest }) ∧
  (∀ s : State, s.inq = [] → s.inclosed = true → s.inRead = (.closed, s)) ∧
  (∀ s : State, s.inq = [] → s.inclosed = false → s.inRead = (.notReady, s)) ∧
  (∀ (s : State) (w : Word), s.inclosed = false → s.supplyInput w = { s with inq := s.inq ++ [w] }) ∧
  (∀ (s : State) (w : Word), s.inclosed = true → s.supplyInput w = s) ∧
  (∀ s : State, s.closeInput = { s with inclosed := true }) ∧
  (∀ s t : State, s.inclosed = true → step s = .next t → t.inclosed = true)

/-- `in` (R140): the next Word to R[x], or IOFault(0) on a closed stream, or no step while no value is available. -/
def Obligations.InReceivesNextWord : Prop :=
  (∀ (x : RegIdx) (low : BitVec 22), decode (wordX 17#5 x low) = .ok (.inp x)) ∧
  ∀ (x : RegIdx) (s : State),
    (∀ w rest, s.inq = w :: rest → ∃ t, exec (.inp x) s = .next t ∧ OnlyRegWritten x w s t ∧ Advanced s t ∧
      SameMem s t ∧ SameFaultStatus s t ∧ t.inq = rest ∧ t.inclosed = s.inclosed ∧ t.outLog = s.outLog) ∧
    (s.inq = [] → s.inclosed = true → ∃ t, exec (.inp x) s = .next t ∧ TakesFault 4#3 (wordAtPc s) 0#32 s t) ∧
    (s.inq = [] → s.inclosed = false → exec (.inp x) s = .fault .inputNotReady)

/-- `out` (R144): the low 8 bits of R[x] are appended to the output stream; it never holds and never faults. -/
def Obligations.OutAppendsLowByte : Prop :=
  (∀ (x : RegIdx) (low : BitVec 22), decode (wordX 18#5 x low) = .ok (.out x)) ∧
  ∀ (x : RegIdx) (s : State), ∃ t, exec (.out x) s = .next t ∧
    t.outLog = s.outLog ++ [BitVec.ofNat 8 (unsigned (s.readReg x) % 256)] ∧
    Advanced s t ∧ SameRegs s t ∧ SameMem s t ∧ SameFaultStatus s t ∧ SameInput s t

/-- The streams move in program order (R21, R22, R38): a step leaves the output stream alone or appends one byte to it, and
then it is `out`; it leaves the input stream alone or takes its head into R[x], and then it is `in`. -/
def Obligations.StreamsMoveInOrder : Prop :=
  ∀ s t : State, step s = .next t →
    (t.outLog = s.outLog ∨ ∃ x b, AtInstr s (.out x) ∧ t.outLog = s.outLog ++ [b]) ∧
    (t.inq = s.inq ∨ ∃ x w, AtInstr s (.inp x) ∧ s.inq = w :: t.inq ∧ t.readReg x = w) ∧
    t.inclosed = s.inclosed

/-! ### Whole-machine rules -/

/-- Faults are precise (R156, R157): a step that records a fault changes no register, no cell and no stream, records the pc
of the step, and halts the engine. -/
def Obligations.RecordedFaultsArePrecise : Prop :=
  ∀ s t : State, s.fcause = 0#3 → step s = .next t → t.fcause ≠ 0#3 →
    TakesFault t.fcause t.finstr t.finfo s t ∧ (t.finstr = wordAtPc s ∨ (65535 < signed s.pc ∧ t.finstr = 0#32)) ∧
    Halted t

/-- At most one register is written per step, the destination of the instruction at the pc (R13). -/
def Obligations.StepWritesAtMostOneRegister : Prop :=
  ∀ s t : State, step s = .next t →
    SameRegs s t ∨ ∃ i x, AtInstr s i ∧ regWritten i = some x ∧ ∀ r, r ≠ x → t.readReg r = s.readReg r

/-- Only `store` changes memory, and only the cell it addresses (R20, R36, R42). -/
def Obligations.OnlyStoreChangesMemory : Prop :=
  ∀ (s t : State) (a : Nat), step s = .next t → t.mem.read a ≠ s.mem.read a →
    ∃ x y, AtInstr s (.store x y) ∧ InRange (s.readReg y) ∧ a = (signed (s.readReg y)).toNat ∧
      t.mem.read a = s.readReg x

/-- A cell keeps its content along a run of `Host.Core.run` in which no step stores to it (R20, R38). Such a run is the
model's (log 4): steps only, nothing arrives on the input port between them. `EveryLaterFetchSeesTheStore` has the supplier's
moves between the steps. -/
def Obligations.CellKeepsContentUntilStored : Prop :=
  ∀ (n : Nat) (s t : State) (a : Nat), Host.Core.run Sys2Proof.core n s = .next t →
    (∀ (k : Nat) (u : State), k < n → Host.Core.run Sys2Proof.core k s = .next u →
      ∀ x y, AtInstr u (.store x y) → InRange (u.readReg y) → (signed (u.readReg y)).toNat ≠ a) →
    t.mem.read a = s.mem.read a

/-- A step ends the run normally exactly when it executes `halt`; every other way to stop records a fault (R86, R162). -/
def Obligations.RunEndsNormallyOnlyByHalt : Prop :=
  ∀ s t : State, s.fcause = 0#3 → step s = .next t → (EndedNormally t ↔ AtInstr s .halt)

/-- No second fault (R160): in a state with a recorded fault no step exists, so the record is never overwritten. -/
def Obligations.RecordedFaultIsFinal : Prop :=
  ∀ s : State, Inv s → s.fcause ≠ 0#3 → EndedByFault s ∧ step s = .fault .halted

/-- A register that an instruction does not read has no influence on it (R13, R114): changing it first leaves the pc, memory,
streams, fault-status registers and every other register of the result as they were. -/
def Obligations.UnreadRegisterHasNoInfluence : Prop :=
  ∀ (i : Instr) (s t : State) (r : RegIdx) (v : Word), r ∉ regsRead i → exec i s = .next t →
    ∃ t', exec i (s.writeReg r v) = .next t' ∧ t'.pc = t.pc ∧ SameMem t t' ∧ SameFaultStatus t t' ∧ SameStreams t t' ∧
      (∀ q, q ≠ r → t'.readReg q = t.readReg q) ∧ (t'.readReg r = t.readReg r ∨ t'.readReg r = v)

/-! ### The invariant -/

/-- The state after reset satisfies the invariant, and no more than that is said of it here. The register, memory and input values of that state are the model's
(log 1, log 2, log 3); `StartStateIsTheSpecs` and `EveryStartSatisfiesInv` are about any. -/
def Obligations.ResetSatisfiesInv : Prop := Inv State.reset

/-- Every step keeps the invariant, from every state that has it: memory in canonical form, s(pc) −1 or 0 to 65536, the
fault-status registers on a row of R151's table, Halted once a fault is recorded (R15, R151, R18). -/
def Obligations.StepKeepsInv : Prop := ∀ s t : State, Inv s → step s = .next t → Inv t

/-- The supplier's moves, a reset, and loading right after a reset keep the invariant (R142, R180, R183, R185). Loading in
another state is not claimed: over a fault record it could change the cell that FPC names. -/
def Obligations.OutsideMovesKeepInv : Prop :=
  ∀ s : State, Inv s →
    (∀ w, Inv (s.supplyInput w)) ∧ Inv s.closeInput ∧ (∀ regReset, Inv (s.resetEvent regReset)) ∧
    (∀ regReset program t, (s.resetEvent regReset).loadProgram program = some t → Inv t)

/-- Every start of a run satisfies the invariant, for any REG_RESET, MEM_INIT, PROGRAM and INPUT (R24, R186). -/
def Obligations.EveryStartSatisfiesInv : Prop :=
  ∀ (regReset memInit : Nat → Word) (program input : List Word) (closed : Bool) (s : State),
    State.start regReset memInit program input closed = some s → Inv s

/-! ### Reset and loading -/

/-- The state at the start of a run (R24), for any REG_RESET, MEM_INIT, PROGRAM that fits, and INPUT. -/
def Obligations.StartStateIsTheSpecs : Prop :=
  ∀ (regReset memInit : Nat → Word) (program input : List Word) (closed : Bool), program.length ≤ 65536 →
    ∃ s, State.start regReset memInit program input closed = some s ∧ s.pc = 0#32 ∧ Running s ∧
      (∀ i : RegIdx, s.readReg i = regReset i.toNat) ∧
      (∀ (a : Nat) (h : a < program.length), s.mem.read a = program[a]) ∧
      (∀ a : Nat, program.length ≤ a → a ≤ 65535 → s.mem.read a = memInit a) ∧
      s.fcause = 0#3 ∧ s.fpc = 0#32 ∧ s.finstr = 0#32 ∧ s.finfo = 0#32 ∧
      s.inq = input ∧ s.inclosed = closed ∧ s.outLog = []

/-- What reset does, applied in any state (R180). That memory stays is R182's; that the streams stay is the model's reading
of "exactly this" (log 12) and is not claimed here. -/
def Obligations.ResetRestoresStart : Prop :=
  ∀ (s : State) (regReset : Nat → Word),
    (s.resetEvent regReset).pc = 0#32 ∧ (s.resetEvent regReset).fcause = 0#3 ∧ (s.resetEvent regReset).fpc = 0#32 ∧
    (s.resetEvent regReset).finstr = 0#32 ∧ (s.resetEvent regReset).finfo = 0#32 ∧
    (∀ i : RegIdx, (s.resetEvent regReset).readReg i = regReset i.toNat) ∧
    (∀ a, (s.resetEvent regReset).mem.read a = s.mem.read a) ∧ Running (s.resetEvent regReset)

/-- Loading (R185): cell k gets PROGRAM[k], every other cell and everything else stays; a list longer than memory cannot be
loaded (R184). -/
def Obligations.LoadingWritesTheImage : Prop :=
  (∀ (s : State) (program : List Word), 65536 < program.length → s.loadProgram program = none) ∧
  (∀ (s : State) (program : List Word), program.length ≤ 65536 →
    ∃ t, s.loadProgram program = some t ∧
      (∀ (k : Nat) (h : k < program.length), t.mem.read k = program[k]) ∧
      (∀ k : Nat, program.length ≤ k → t.mem.read k = s.mem.read k) ∧
      t.pc = s.pc ∧ SameRegs s t ∧ SameFaultStatus s t ∧ SameStreams s t)
end

