-- ==== Sys2Proof/Laws/Assembler.lean ====
section
/-! SUPPORT. What the assembler's parts do with text that the disassembler writes: splitting, comments, decimal numbers,
operands, and one whole line. -/

namespace Sys2Proof.Machine

/-! ### Splitting -/

/-- A piece without separators is one piece. -/
theorem splitChars_clean {p : Char → Bool} {w : List Char} (h : ∀ c ∈ w, p c = false) : splitChars p w = [w] := by
  induction w with
  | nil => rfl
  | cons c w ih =>
    rw [splitChars, ih (fun d hd => h d (List.mem_cons_of_mem c hd)), h c List.mem_cons_self]
    rfl

/-- The piece before the first separator is split off. -/
theorem splitChars_append_sep {p : Char → Bool} {w rest : List Char} {c : Char} (h : ∀ d ∈ w, p d = false)
    (hc : p c = true) : splitChars p (w ++ c :: rest) = w :: splitChars p rest := by
  induction w with
  | nil => rw [List.nil_append, splitChars, if_pos hc]
  | cons d w ih =>
    rw [List.cons_append, splitChars, ih (fun e he => h e (List.mem_cons_of_mem d he)), h d List.mem_cons_self]
    rfl

/-- Pieces that each begin with a separator. -/
theorem splitChars_flatMap {p : Char → Bool} {c : Char} (hc : p c = true) {ws : List (List Char)} :
    ∀ {w : List Char}, (∀ d ∈ w, p d = false) → (∀ v ∈ ws, ∀ d ∈ v, p d = false) →
      splitChars p (w ++ ws.flatMap (fun v => c :: v)) = w :: ws := by
  induction ws with
  | nil => intro w hw _; simpa using splitChars_clean hw
  | cons v ws ih =>
    intro w hw hv
    rw [List.flatMap_cons, List.cons_append, splitChars_append_sep hw hc,
      ih (hv v List.mem_cons_self) (fun u hu => hv u (List.mem_cons_of_mem v hu))]

/-- Lines that each end in a separator; the empty piece after the last one stays. -/
theorem splitChars_lines {p : Char → Bool} {c : Char} (hc : p c = true) {ws : List (List Char)}
    (h : ∀ v ∈ ws, ∀ d ∈ v, p d = false) : splitChars p (ws.flatMap (fun v => v ++ [c])) = ws ++ [[]] := by
  induction ws with
  | nil => rfl
  | cons v ws ih =>
    rw [List.flatMap_cons, List.append_assoc, List.singleton_append, splitChars_append_sep (h v List.mem_cons_self) hc,
      ih (fun u hu => h u (List.mem_cons_of_mem v hu)), List.cons_append]

/-- Text without a slash has no comment. -/
theorem stripComment_clean : ∀ {l : List Char}, (∀ c ∈ l, c ≠ '/') → stripComment l = l
  | [], _ => rfl
  | [_], _ => rfl
  | c :: d :: rest, h => by
    rw [stripComment, if_neg (fun e => h c List.mem_cons_self e.1),
      stripComment_clean (fun e he => h e (List.mem_cons_of_mem c he))]

/-! ### Numbers and operands -/

/-- The digits of a number are the characters 0 to 9. -/
theorem toNat_of_mem_toDigits {n : Nat} {c : Char} (h : c ∈ Nat.toDigits 10 n) : 48 ≤ c.toNat ∧ c.toNat ≤ 57 := by
  have hd := Nat.isDigit_of_mem_toDigits (by decide) (by decide) h
  simp only [Char.isDigit, Bool.and_eq_true, decide_eq_true_eq] at hd
  exact ⟨UInt32.le_iff_toNat_le.mp hd.1, UInt32.le_iff_toNat_le.mp hd.2⟩

/-- One digit more on the right. -/
theorem decimalStep_digit {d : Nat} (hd : d < 10) (acc : Nat) : decimalStep acc d.digitChar = some (acc * 10 + d) := by
  have : ∀ e < 10, '0'.toNat ≤ (Nat.digitChar e).toNat ∧ (Nat.digitChar e).toNat ≤ '9'.toNat ∧
      (Nat.digitChar e).toNat - '0'.toNat = e := by decide
  obtain ⟨h1, h2, h3⟩ := this d hd
  rw [decimalStep, if_pos ⟨h1, h2⟩, h3]

/-- Reading a number's decimal digits gives the number (R68, R69). -/
theorem decimal_toDigits (n : Nat) : decimal (Nat.toDigits 10 n) = some n := by
  have fold : ∀ n, (Nat.toDigits 10 n).foldlM decimalStep 0 = some n := by
    intro n
    induction n using Nat.strongRecOn with
    | _ n ih =>
      by_cases hn : n < 10
      · rw [Nat.toDigits_of_lt_base hn, List.foldlM_cons, decimalStep_digit hn]; simp
      · rw [Nat.toDigits_of_base_le (by decide) (by omega), List.foldlM_append, ih (n / 10) (by omega)]
        simp only [Option.bind_eq_bind, Option.bind_some, List.foldlM_cons, decimalStep_digit (Nat.mod_lt n (by decide))]
        simp; omega
  have hne : Nat.toDigits 10 n ≠ [] := Nat.toDigits_ne_nil
  rw [← fold n]
  unfold decimal
  split
  · next e => exact absurd e hne
  · rfl

/-- The assembler reads the disassembler's operands back (R66, R68, R69). -/
theorem operandOf_operandText (o : Operand) : operandOf (operandText o) = .ok o := by
  cases o with
  | reg n => rw [operandText, operandOf, decimal_toDigits]
  | lit n =>
    have hn := decimal_toDigits n
    rw [operandText]
    unfold operandOf
    split
    · next digits e =>
      have := toNat_of_mem_toDigits (n := n) (c := 'R') (by rw [e]; exact List.mem_cons_self)
      exact absurd this.2 (by decide)
    · rw [hn]

/-- The characters of an operand: the letter R and digits, so no separator, slash or newline. -/
theorem mem_operandText {o : Operand} {c : Char} (h : c ∈ operandText o) : 48 ≤ c.toNat ∧ c.toNat ≤ 82 := by
  cases o with
  | reg n =>
    rcases List.mem_cons.mp h with rfl | h
    · decide
    · have := toNat_of_mem_toDigits h; omega
  | lit n => have := toNat_of_mem_toDigits h; omega

/-! ### One line -/

/-- The mnemonics are words of lower-case letters (R66). -/
theorem sourceLine_mnemonic (i : Instr) :
    (sourceLine i).mnemonic.toList ≠ [] ∧ ∀ c ∈ (sourceLine i).mnemonic.toList, 97 ≤ c.toNat ∧ c.toNat ≤ 122 := by
  refine ⟨by cases i <;> simp [sourceLine], fun c hc => ?_⟩
  have hall : (sourceLine i).mnemonic.toList.all (fun c => decide (97 ≤ c.toNat ∧ c.toNat ≤ 122)) = true := by
    cases i <;> simp [sourceLine]
  exact of_decide_eq_true (List.all_eq_true.mp hall c hc)

/-- A line's text holds no newline and no slash, and no separator but the spaces before the operands. -/
theorem mem_lineText {i : Instr} {c : Char} (h : c ∈ lineText (sourceLine i)) :
    c = ' ' ∨ (48 ≤ c.toNat ∧ c.toNat ≤ 122) := by
  rcases List.mem_append.mp h with h | h
  · have := (sourceLine_mnemonic i).2 c h; omega
  · obtain ⟨o, -, h⟩ := List.mem_flatMap.mp h
    rcases List.mem_cons.mp h with h | h
    · exact .inl h
    · have := mem_operandText h; omega

/-- A character from 0 to z separates nothing. -/
theorem isSeparator_of_ge {c : Char} (h : 48 ≤ c.toNat) : isSeparator c = false := by
  have hs : c ≠ ' ' := by rintro rfl; exact absurd h (by decide)
  have ht : c ≠ '\t' := by rintro rfl; exact absurd h (by decide)
  have hc : c ≠ ',' := by rintro rfl; exact absurd h (by decide)
  simp [isSeparator, hs, ht, hc]

/-- The tokens of a line that the disassembler writes: the mnemonic and the operands (R66). -/
theorem tokens_lineText (i : Instr) :
    tokens (lineText (sourceLine i)) = (sourceLine i).mnemonic.toList :: (sourceLine i).operands.map operandText := by
  obtain ⟨hne, hm⟩ := sourceLine_mnemonic i
  have hclean : ∀ c ∈ lineText (sourceLine i), c ≠ '/' := fun c hc e => by
    subst e
    rcases mem_lineText hc with h | h
    · exact absurd h (by decide)
    · exact absurd h.1 (by decide)
  have hflat : (sourceLine i).operands.flatMap (fun o => ' ' :: operandText o) =
      ((sourceLine i).operands.map operandText).flatMap (fun v => ' ' :: v) := by rw [List.flatMap_map]
  rw [tokens, stripComment_clean hclean, lineText, hflat, splitChars_flatMap (by decide)]
  · refine List.filter_eq_self.mpr fun v hv => ?_
    have hv' : v ≠ [] := by
      rcases List.mem_cons.mp hv with rfl | hv
      · exact hne
      · obtain ⟨o, -, rfl⟩ := List.mem_map.mp hv
        cases o with
        | reg n => exact List.cons_ne_nil _ _
        | lit n => exact Nat.toDigits_ne_nil
    simpa using hv'
  · intro d hd; have := hm d hd; exact isSeparator_of_ge (by omega)
  · intro v hv d hd
    obtain ⟨o, -, rfl⟩ := List.mem_map.mp hv
    exact isSeparator_of_ge (mem_operandText hd).1

/-- Reading back the text of a line is assembling the line. -/
theorem assembleTokens_lineText (i : Instr) :
    assembleTokens (tokens (lineText (sourceLine i))) = assembleLine (sourceLine i) := by
  have hops : ∀ os : List Operand, (os.map operandText).mapM operandOf = .ok os := by
    intro os
    induction os with
    | nil => rfl
    | cons o os ih => rw [List.map_cons, List.mapM_cons, operandOf_operandText, ih]; rfl
  rw [tokens_lineText, assembleTokens, hops, String.ofList_toList]
  rfl

end Sys2Proof.Machine
end

