-- ==== Sys2Proof/Laws/Decode.lean ====
section
/-! SUPPORT. Arithmetic of the Encoding Format: the numbers that the two shapes and the five fields stand for, and what the
decoder answers for each opcode. Later proofs turn a fact about bits into these numbers and close it by omega. -/

namespace Sys2Proof.Machine

/-- Concatenation as a number. -/
theorem toNat_append_eq {n m : Nat} (a : BitVec n) (b : BitVec m) :
    (a ++ b).toNat = a.toNat * 2 ^ m + b.toNat := by
  rw [BitVec.toNat_append, ← Nat.shiftLeft_add_eq_or_of_lt b.isLt, Nat.shiftLeft_eq]

/-- The number of a word of the XYZ shape (R55). -/
theorem wordXYZ_toNat (op x y z : BitVec 5) (low : BitVec 12) :
    (wordXYZ op x y z low).toNat =
      op.toNat * 2 ^ 27 + x.toNat * 2 ^ 22 + y.toNat * 2 ^ 17 + z.toNat * 2 ^ 12 + low.toNat := by
  have h4 := toNat_append_eq (op ++ x ++ y ++ z) low
  have h3 := toNat_append_eq (op ++ x ++ y) z
  have h2 := toNat_append_eq (op ++ x) y
  have h1 := toNat_append_eq op x
  exact h4.trans (by rw [h3, h2, h1]; omega)

/-- The number of a word that uses op, x and y. -/
theorem wordXY_toNat (op x y : BitVec 5) (low : BitVec 17) :
    (wordXY op x y low).toNat = op.toNat * 2 ^ 27 + x.toNat * 2 ^ 22 + y.toNat * 2 ^ 17 + low.toNat := by
  have h3 := toNat_append_eq (op ++ x ++ y) low
  have h2 := toNat_append_eq (op ++ x) y
  have h1 := toNat_append_eq op x
  exact h3.trans (by rw [h2, h1]; omega)

/-- The number of a word that uses op, x and 22 more bits: the Const shape (R56). -/
theorem wordX_toNat (op x : BitVec 5) (low : BitVec 22) :
    (wordX op x low).toNat = op.toNat * 2 ^ 27 + x.toNat * 2 ^ 22 + low.toNat := by
  have h2 := toNat_append_eq (op ++ x) low
  have h1 := toNat_append_eq op x
  exact h2.trans (by rw [h1]; omega)

/-- The number of a word that uses op alone. -/
theorem wordOp_toNat (op : BitVec 5) (low : BitVec 27) :
    (wordOp op low).toNat = op.toNat * 2 ^ 27 + low.toNat := by
  exact toNat_append_eq op low

/-! ### The five fields as numbers (R53) -/

theorem fields_op_toNat (iw : Word) : (fields iw).op.toNat = iw.toNat / 2 ^ 27 := by
  have := iw.isLt
  simp only [fields, BitVec.extractLsb'_toNat, Nat.shiftRight_eq_div_pow]
  omega

theorem fields_x_toNat (iw : Word) : (fields iw).x.toNat = iw.toNat / 2 ^ 22 % 2 ^ 5 := by
  simp only [fields, BitVec.extractLsb'_toNat, Nat.shiftRight_eq_div_pow]

theorem fields_y_toNat (iw : Word) : (fields iw).y.toNat = iw.toNat / 2 ^ 17 % 2 ^ 5 := by
  simp only [fields, BitVec.extractLsb'_toNat, Nat.shiftRight_eq_div_pow]

theorem fields_z_toNat (iw : Word) : (fields iw).z.toNat = iw.toNat / 2 ^ 12 % 2 ^ 5 := by
  simp only [fields, BitVec.extractLsb'_toNat, Nat.shiftRight_eq_div_pow]

theorem fields_c_toNat (iw : Word) : (fields iw).c.toNat = iw.toNat % 2 ^ 22 := by
  simp only [fields, BitVec.extractLsb'_toNat, Nat.shiftRight_eq_div_pow, Nat.pow_zero, Nat.div_one]

/-! ### The fields of a word of each shape -/

/-- Fields that are equal as numbers are equal. -/
theorem fields_eq_of (iw : Word) (op x y z : BitVec 5) (c : Imm22) (ho : iw.toNat / 2 ^ 27 = op.toNat)
    (hx : iw.toNat / 2 ^ 22 % 2 ^ 5 = x.toNat) (hy : iw.toNat / 2 ^ 17 % 2 ^ 5 = y.toNat)
    (hz : iw.toNat / 2 ^ 12 % 2 ^ 5 = z.toNat) (hc : iw.toNat % 2 ^ 22 = c.toNat) :
    fields iw = ⟨op, x, y, z, c⟩ := by
  have h1 : (fields iw).op = op := BitVec.eq_of_toNat_eq (by rw [fields_op_toNat, ho])
  have h2 : (fields iw).x = x := BitVec.eq_of_toNat_eq (by rw [fields_x_toNat, hx])
  have h3 : (fields iw).y = y := BitVec.eq_of_toNat_eq (by rw [fields_y_toNat, hy])
  have h4 : (fields iw).z = z := BitVec.eq_of_toNat_eq (by rw [fields_z_toNat, hz])
  have h5 : (fields iw).c = c := BitVec.eq_of_toNat_eq (by rw [fields_c_toNat, hc])
  cases hf : fields iw
  simp_all

theorem fields_wordXYZ (op x y z : BitVec 5) (low : BitVec 12) :
    (fields (wordXYZ op x y z low)).op = op ∧ (fields (wordXYZ op x y z low)).x = x ∧
      (fields (wordXYZ op x y z low)).y = y ∧ (fields (wordXYZ op x y z low)).z = z := by
  have h := wordXYZ_toNat op x y z low
  have := op.isLt; have := x.isLt; have := y.isLt; have := z.isLt; have := low.isLt
  refine ⟨?_, ?_, ?_, ?_⟩ <;> apply BitVec.eq_of_toNat_eq
  · rw [fields_op_toNat, h]; omega
  · rw [fields_x_toNat, h]; omega
  · rw [fields_y_toNat, h]; omega
  · rw [fields_z_toNat, h]; omega

theorem fields_wordXY (op x y : BitVec 5) (low : BitVec 17) :
    (fields (wordXY op x y low)).op = op ∧ (fields (wordXY op x y low)).x = x ∧
      (fields (wordXY op x y low)).y = y := by
  have h := wordXY_toNat op x y low
  have := op.isLt; have := x.isLt; have := y.isLt; have := low.isLt
  refine ⟨?_, ?_, ?_⟩ <;> apply BitVec.eq_of_toNat_eq
  · rw [fields_op_toNat, h]; omega
  · rw [fields_x_toNat, h]; omega
  · rw [fields_y_toNat, h]; omega

theorem fields_wordX (op x : BitVec 5) (low : BitVec 22) :
    (fields (wordX op x low)).op = op ∧ (fields (wordX op x low)).x = x ∧ (fields (wordX op x low)).c = low := by
  have h := wordX_toNat op x low
  have := op.isLt; have := x.isLt; have := low.isLt
  refine ⟨?_, ?_, ?_⟩ <;> apply BitVec.eq_of_toNat_eq
  · rw [fields_op_toNat, h]; omega
  · rw [fields_x_toNat, h]; omega
  · rw [fields_c_toNat, h]; omega

theorem fields_wordOp (op : BitVec 5) (low : BitVec 27) : (fields (wordOp op low)).op = op := by
  have h := wordOp_toNat op low
  have := op.isLt; have := low.isLt
  apply BitVec.eq_of_toNat_eq
  rw [fields_op_toNat, h]; omega

/-! ### What decode can answer -/

/-- A word is refused only for its opcode, which is then unassigned and named in the refusal (R60). -/
theorem decode_error_cases {iw : Word} {e : DecodeError} (h : decode iw = .error e) :
    e = .unknownOpcode (fields iw).op ∧ UnassignedOpcode (opcodeNumber iw) := by
  have hop := fields_op_toNat iw
  unfold decode at h
  dsimp only at h
  split at h
  all_goals first
    | (cases h; done)
    | (cases h
       simp only [imp_false] at *
       refine ⟨trivial, ?_⟩
       simp only [UnassignedOpcode, opcodeNumber, unsigned]
       omega)

/-- A word with an unassigned opcode is refused (R60). -/
theorem decode_unassigned {iw : Word} (h : UnassignedOpcode (opcodeNumber iw)) :
    decode iw = .error (.unknownOpcode (fields iw).op) := by
  have hop := fields_op_toNat iw
  unfold decode
  dsimp only
  split
  all_goals first
    | rfl
    | (exfalso; simp only [UnassignedOpcode, opcodeNumber, unsigned] at h; omega)

/-- The opcode number of each instruction (R58). -/
def opcodeOf : Instr → Nat
  | .add .. => 1
  | .sub .. => 2
  | .mul .. => 3
  | .div .. => 4
  | .mod .. => 5
  | .and .. => 6
  | .or .. => 7
  | .not .. => 8
  | .const .. => 9
  | .sll .. => 10
  | .load .. => 11
  | .store .. => 12
  | .goto .. => 13
  | .ifeq .. => 14
  | .iflt .. => 15
  | .halt => 16
  | .inp .. => 17
  | .out .. => 18

/-- The instruction that decode answers carries the word's opcode. -/
theorem decode_opcode {iw : Word} {i : Instr} (h : decode iw = .ok i) : opcodeNumber iw = opcodeOf i := by
  have hop := fields_op_toNat iw
  unfold decode at h
  dsimp only at h
  split at h
  all_goals first
    | (cases h; simp only [opcodeNumber, opcodeOf, unsigned]; omega)
    | cases h

/-- Every instruction is well formed: its fields carry the widths that the encoder checks (R12, R61). -/
theorem instr_wf (i : Instr) : i.wf = true := by
  cases i <;> simp [Instr.wf, Instr.encoderCall, EncoderCall.wf, fitsFive, fitsConst, Config.regWidth, Config.constWidth] <;> omega

end Sys2Proof.Machine
end

