-- ==== Sys2Proof/Laws/Memory.lean ====
section
/-! SUPPORT. What the memory interface does: a read after a write, the canonical form kept by every operation, and equal
memories are equal data. -/

namespace Sys2Proof.Machine

/-! ### A read after a write -/

theorem Memory.read_erase_self (m : Memory) (a : Nat) : (m.erase a).read a = Config.unlistedCell := by
  induction m with
  | nil => rfl
  | cons cell rest ih =>
    obtain ⟨k, v⟩ := cell
    by_cases h : k = a
    · simpa [Memory.erase, h] using ih
    · simpa [Memory.erase, h, Memory.read] using ih

theorem Memory.read_erase_other (m : Memory) (a b : Nat) (h : b ≠ a) : (m.erase a).read b = m.read b := by
  induction m with
  | nil => rfl
  | cons cell rest ih =>
    obtain ⟨k, v⟩ := cell
    simp only [Memory.erase] at ih ⊢
    by_cases hk : k = a
    · subst hk
      have hkb : k ≠ b := fun e => h e.symm
      simp [Memory.read, hkb, ih]
    · by_cases hb : k = b
      · subst hb; simp [hk, Memory.read]
      · simp [hk, Memory.read, hb, ih]

theorem Memory.read_insert_other (m : Memory) (a b : Nat) (v : Word) (h : b ≠ a) :
    (m.insert a v).read b = m.read b := by
  have hab : a ≠ b := fun e => h e.symm
  induction m with
  | nil => simp [Memory.insert, Memory.read, hab]
  | cons cell rest ih =>
    obtain ⟨k, w⟩ := cell
    by_cases hk : a < k
    · simp [Memory.insert, hk, Memory.read, hab]
    · simp [Memory.insert, hk, Memory.read, ih]

theorem Memory.read_insert_self (m : Memory) (a : Nat) (v : Word) (h : ∀ cell ∈ m, cell.1 ≠ a) :
    (m.insert a v).read a = v := by
  induction m with
  | nil => simp [Memory.insert, Memory.read]
  | cons cell rest ih =>
    obtain ⟨k, w⟩ := cell
    by_cases hk : a < k
    · simp [Memory.insert, hk, Memory.read]
    · have hne : k ≠ a := h (k, w) (by simp)
      simp [Memory.insert, hk, Memory.read, hne, ih (fun c hc => h c (by simp [hc]))]

theorem Memory.erase_not_listed (m : Memory) (a : Nat) : ∀ cell ∈ m.erase a, cell.1 ≠ a := by
  intro cell hc
  simpa [Memory.erase] using (List.mem_filter.mp hc).2

/-- A read of the written cell returns the written Word, whatever the list (R32, R36). -/
@[simp] theorem Memory.read_write_self (m : Memory) (a : Nat) (v : Word) : (m.write a v).read a = v := by
  unfold Memory.write
  split
  · next h => rw [Memory.read_erase_self, h]
  · exact Memory.read_insert_self _ _ _ (Memory.erase_not_listed m a)

/-- A write changes no other cell (R32). -/
theorem Memory.read_write_other (m : Memory) (a b : Nat) (v : Word) (h : b ≠ a) :
    (m.write a v).read b = m.read b := by
  unfold Memory.write
  split
  · exact Memory.read_erase_other m a b h
  · rw [Memory.read_insert_other _ _ _ _ h, Memory.read_erase_other m a b h]

/-- What a write does to every cell. -/
theorem Memory.read_write (m : Memory) (a b : Nat) (v : Word) :
    (m.write a v).read b = if b = a then v else m.read b := by
  by_cases h : b = a
  · subst h; simp
  · rw [if_neg h, Memory.read_write_other m a b v h]

/-! ### The canonical form -/

/-- One entry of a memory in canonical form. -/
theorem Memory.wfFrom_cons (lo k : Nat) (v : Word) (rest : Memory) :
    Memory.wfFrom lo ((k, v) :: rest) = true ↔
      lo ≤ k ∧ k < Config.memWords ∧ v ≠ Config.unlistedCell ∧ Memory.wfFrom (k + 1) rest = true := by
  simp [Memory.wfFrom, and_assoc]

theorem Memory.wfFrom_mono (m : Memory) (lo lo' : Nat) (h : lo' ≤ lo) (hw : m.wfFrom lo = true) :
    m.wfFrom lo' = true := by
  cases m with
  | nil => rfl
  | cons cell rest =>
    obtain ⟨k, v⟩ := cell
    rw [Memory.wfFrom_cons] at hw ⊢
    exact ⟨by omega, hw.2⟩

theorem Memory.wfFrom_erase (m : Memory) (lo a : Nat) (hw : m.wfFrom lo = true) :
    (m.erase a).wfFrom lo = true := by
  induction m generalizing lo with
  | nil => rfl
  | cons cell rest ih =>
    obtain ⟨k, v⟩ := cell
    rw [Memory.wfFrom_cons] at hw
    obtain ⟨h1, h2, h3, h4⟩ := hw
    by_cases hk : k = a
    · have := ih (k + 1) h4
      have := Memory.wfFrom_mono _ (k + 1) lo (by omega) this
      simpa [Memory.erase, hk] using this
    · have hrest := ih (k + 1) h4
      simp only [Memory.erase] at hrest ⊢
      rw [List.filter_cons_of_pos (by simpa using hk), Memory.wfFrom_cons]
      exact ⟨h1, h2, h3, hrest⟩

theorem Memory.wfFrom_insert (m : Memory) (lo a : Nat) (v : Word) (hlo : lo ≤ a) (ha : a < Config.memWords)
    (hv : v ≠ Config.unlistedCell) (hn : ∀ cell ∈ m, cell.1 ≠ a) (hw : m.wfFrom lo = true) :
    (m.insert a v).wfFrom lo = true := by
  induction m generalizing lo with
  | nil =>
    rw [Memory.insert, Memory.wfFrom_cons]
    exact ⟨hlo, ha, hv, rfl⟩
  | cons cell rest ih =>
    obtain ⟨k, w⟩ := cell
    rw [Memory.wfFrom_cons] at hw
    obtain ⟨h1, h2, h3, h4⟩ := hw
    have hne : k ≠ a := hn (k, w) (by simp)
    by_cases hk : a < k
    · rw [Memory.insert, if_pos hk, Memory.wfFrom_cons, Memory.wfFrom_cons]
      exact ⟨hlo, ha, hv, by omega, h2, h3, h4⟩
    · rw [Memory.insert, if_neg hk, Memory.wfFrom_cons]
      exact ⟨h1, h2, h3, ih (k + 1) (by omega) (fun c hc => hn c (by simp [hc])) h4⟩

/-- A write to a cell of the machine keeps the canonical form. -/
theorem Memory.wf_write (m : Memory) (a : Nat) (v : Word) (ha : a < Config.memWords) (hw : m.wf = true) :
    (m.write a v).wf = true := by
  unfold Memory.wf Memory.write at *
  split
  · exact Memory.wfFrom_erase m 0 a hw
  · next hv =>
    exact Memory.wfFrom_insert _ 0 a v (by omega) ha hv (Memory.erase_not_listed m a) (Memory.wfFrom_erase m 0 a hw)

/-- Nothing listed is the canonical form of the memory of `State.reset`. -/
@[simp] theorem Memory.wf_nil : Memory.wf [] = true := rfl

/-- Cells below the first listed one are unlisted. -/
theorem Memory.read_below (m : Memory) (lo a : Nat) (h : a < lo) (hw : m.wfFrom lo = true) :
    m.read a = Config.unlistedCell := by
  induction m generalizing lo with
  | nil => rfl
  | cons cell rest ih =>
    obtain ⟨k, v⟩ := cell
    rw [Memory.wfFrom_cons] at hw
    obtain ⟨h1, -, -, h4⟩ := hw
    have hne : k ≠ a := by omega
    rw [Memory.read, if_neg hne]
    exact ih (k + 1) (by omega) h4

theorem Memory.ext_from (m n : Memory) (lo : Nat) (hm : m.wfFrom lo = true) (hn : n.wfFrom lo = true)
    (h : ∀ a, m.read a = n.read a) : m = n := by
  induction m generalizing n lo with
  | nil =>
    cases n with
    | nil => rfl
    | cons cell rest =>
      obtain ⟨k, v⟩ := cell
      rw [Memory.wfFrom_cons] at hn
      have := h k
      simp only [Memory.read, if_true] at this
      exact absurd this.symm hn.2.2.1
  | cons cell rest ih =>
    obtain ⟨k, v⟩ := cell
    rw [Memory.wfFrom_cons] at hm
    obtain ⟨-, -, hv, hr⟩ := hm
    cases n with
    | nil =>
      have := h k
      simp only [Memory.read, if_true] at this
      exact absurd this hv
    | cons cell' rest' =>
      obtain ⟨k', v'⟩ := cell'
      rw [Memory.wfFrom_cons] at hn
      obtain ⟨-, -, hv', hr'⟩ := hn
      have hkk : k = k' := by
        rcases Nat.lt_trichotomy k k' with hlt | heq | hgt
        · have := h k
          rw [Memory.read, if_pos rfl, Memory.read, if_neg (by omega),
            Memory.read_below rest' (k' + 1) k (by omega) hr'] at this
          exact absurd this hv
        · exact heq
        · have := h k'
          rw [Memory.read, if_neg (by omega), Memory.read_below rest (k + 1) k' (by omega) hr, Memory.read,
            if_pos rfl] at this
          exact absurd this.symm hv'
      subst hkk
      have hvv : v = v' := by simpa [Memory.read] using h k
      subst hvv
      have hrest : rest = rest' := by
        apply ih rest' (k + 1) hr hr'
        intro a
        by_cases ha : k = a
        · subst ha
          rw [Memory.read_below rest (k + 1) k (by omega) hr, Memory.read_below rest' (k + 1) k (by omega) hr']
        · simpa [Memory.read, ha] using h a
      rw [hrest]

/-- Equal memories are equal data. -/
theorem memory_ext (m n : Memory) (hm : m.wf = true) (hn : n.wf = true) (h : ∀ a, m.read a = n.read a) : m = n :=
  Memory.ext_from m n 0 hm hn h

/-! ### The host's ways to fill memory -/

theorem Memory.wfFrom_append (m : Memory) (lo n : Nat) (v : Word) (hlo : lo ≤ n) (hn : n < Config.memWords)
    (hv : v ≠ Config.unlistedCell) (hb : ∀ cell ∈ m, cell.1 < n) (hw : m.wfFrom lo = true) :
    (m ++ [(n, v)]).wfFrom lo = true := by
  induction m generalizing lo with
  | nil =>
    rw [List.nil_append, Memory.wfFrom_cons]
    exact ⟨hlo, hn, hv, rfl⟩
  | cons cell rest ih =>
    obtain ⟨k, w⟩ := cell
    rw [Memory.wfFrom_cons] at hw
    rw [List.cons_append, Memory.wfFrom_cons]
    have hk : k < n := hb (k, w) (by simp)
    exact ⟨hw.1, hw.2.1, hw.2.2.1, ih (k + 1) (by omega) (fun c hc => hb c (by simp [hc])) hw.2.2.2⟩

theorem Memory.tabulate_below (f : Nat → Word) (n : Nat) : ∀ cell ∈ Memory.tabulate f n, cell.1 < n := by
  induction n with
  | zero => intro cell h; cases h
  | succ n ih =>
    intro cell h
    unfold Memory.tabulate at h
    split at h
    · exact Nat.lt_succ_of_lt (ih cell h)
    · rcases List.mem_append.mp h with h | h
      · exact Nat.lt_succ_of_lt (ih cell h)
      · have : cell = (n, f n) := by simpa using h
        subst this; exact Nat.lt_succ_self n

/-- Tabulating any content gives a memory in canonical form. -/
theorem Memory.wf_tabulate (f : Nat → Word) (n : Nat) (h : n ≤ Config.memWords) :
    (Memory.tabulate f n).wf = true := by
  induction n with
  | zero => rfl
  | succ n ih =>
    unfold Memory.tabulate
    split
    · exact ih (by omega)
    · next hv =>
      exact Memory.wfFrom_append _ 0 n _ (by omega) (by omega) hv (Memory.tabulate_below f n) (ih (by omega))

theorem Memory.read_append (m : Memory) (n a : Nat) (v : Word) (hb : ∀ cell ∈ m, cell.1 < n) :
    (m ++ [(n, v)]).read a = if a = n then v else m.read a := by
  induction m with
  | nil =>
    by_cases h : a = n
    · subst h; simp [Memory.read]
    · have h' : n ≠ a := fun e => h e.symm
      simp [Memory.read, h, h']
  | cons cell rest ih =>
    obtain ⟨k, w⟩ := cell
    have hk : k < n := hb (k, w) (by simp)
    rw [List.cons_append, Memory.read, Memory.read, ih (fun c hc => hb c (by simp [hc]))]
    by_cases h : k = a
    · have : a ≠ n := by omega
      simp [h, this]
    · simp [h]

/-- Every content of the cells is the content of a memory (R24: any MEM_INIT). -/
theorem Memory.read_tabulate (f : Nat → Word) (n a : Nat) :
    (Memory.tabulate f n).read a = if a < n then f a else Config.unlistedCell := by
  induction n with
  | zero => rfl
  | succ n ih =>
    unfold Memory.tabulate
    split
    · next h =>
      rw [ih]
      by_cases ha : a = n
      · subst ha; simp [h]
      · by_cases hlt : a < n
        · rw [if_pos hlt, if_pos (by omega)]
        · rw [if_neg hlt, if_neg (by omega)]
    · rw [Memory.read_append _ _ _ _ (Memory.tabulate_below f n), ih]
      by_cases ha : a = n
      · subst ha; simp
      · by_cases hlt : a < n
        · rw [if_neg ha, if_pos hlt, if_pos (by omega)]
        · rw [if_neg ha, if_neg hlt, if_neg (by omega)]

/-- Writing a list keeps the canonical form when it fits. -/
theorem Memory.wf_writeList (m : Memory) (a : Nat) (ws : List Word) (h : a + ws.length ≤ Config.memWords)
    (hw : m.wf = true) : (m.writeList a ws).wf = true := by
  induction ws generalizing m a with
  | nil => exact hw
  | cons w rest ih =>
    rw [List.length_cons] at h
    exact ih (m.write a w) (a + 1) (by omega) (Memory.wf_write m a w (by omega) hw)

/-- Writing a list changes no cell below it. -/
theorem Memory.read_writeList_below (m : Memory) (a b : Nat) (ws : List Word) (h : b < a) :
    (m.writeList a ws).read b = m.read b := by
  induction ws generalizing m a with
  | nil => rfl
  | cons w rest ih =>
    rw [Memory.writeList, ih (m.write a w) (a + 1) (by omega), Memory.read_write_other m a b w (by omega)]

/-- What writing a list does to every cell. -/
theorem Memory.read_writeList (m : Memory) (a b : Nat) (ws : List Word) :
    (m.writeList a ws).read b = if h : a ≤ b ∧ b < a + ws.length then ws[b - a]'(by omega) else m.read b := by
  induction ws generalizing m a with
  | nil =>
    have : ¬ (a ≤ b ∧ b < a + ([] : List Word).length) := by simp only [List.length_nil]; omega
    rw [dif_neg this]; rfl
  | cons w rest ih =>
    rw [Memory.writeList, ih (m.write a w) (a + 1)]
    by_cases hb : b = a
    · subst hb
      have h1 : ¬ (b + 1 ≤ b ∧ b < b + 1 + rest.length) := by omega
      have h2 : b ≤ b ∧ b < b + (w :: rest).length := by simp
      rw [dif_neg h1, dif_pos h2]
      simp
    · by_cases hin : a + 1 ≤ b ∧ b < a + 1 + rest.length
      · have h2 : a ≤ b ∧ b < a + (w :: rest).length := by simp only [List.length_cons]; omega
        have h3 : b - a = (b - (a + 1)) + 1 := by omega
        rw [dif_pos hin, dif_pos h2]
        simp only [h3, List.getElem_cons_succ]
      · have h2 : ¬ (a ≤ b ∧ b < a + (w :: rest).length) := by simp only [List.length_cons]; omega
        rw [dif_neg hin, dif_neg h2, Memory.read_write_other m a b w hb]

end Sys2Proof.Machine
end

