-- ==== Sys2Proof/Laws/State.lean ====
section
/-! SUPPORT. One lemma per field per update of the state, each true by rfl, so that no proof unfolds a record update; and
the reads of a register and of a cell through each update. -/

namespace Sys2Proof.Machine

variable (s : State)

/-! ### `State.writeReg` -/

@[simp] theorem State.writeReg_regs (i : RegIdx) (v : Word) : (s.writeReg i v).regs = s.regs.set i.toNat v i.isLt := rfl
@[simp] theorem State.writeReg_pc (i : RegIdx) (v : Word) : (s.writeReg i v).pc = s.pc := rfl
@[simp] theorem State.writeReg_mem (i : RegIdx) (v : Word) : (s.writeReg i v).mem = s.mem := rfl
@[simp] theorem State.writeReg_fcause (i : RegIdx) (v : Word) : (s.writeReg i v).fcause = s.fcause := rfl
@[simp] theorem State.writeReg_fpc (i : RegIdx) (v : Word) : (s.writeReg i v).fpc = s.fpc := rfl
@[simp] theorem State.writeReg_finstr (i : RegIdx) (v : Word) : (s.writeReg i v).finstr = s.finstr := rfl
@[simp] theorem State.writeReg_finfo (i : RegIdx) (v : Word) : (s.writeReg i v).finfo = s.finfo := rfl
@[simp] theorem State.writeReg_inq (i : RegIdx) (v : Word) : (s.writeReg i v).inq = s.inq := rfl
@[simp] theorem State.writeReg_inclosed (i : RegIdx) (v : Word) : (s.writeReg i v).inclosed = s.inclosed := rfl
@[simp] theorem State.writeReg_outLog (i : RegIdx) (v : Word) : (s.writeReg i v).outLog = s.outLog := rfl

/-! ### `State.memWrite` -/

@[simp] theorem State.memWrite_regs (v w : Word) : (s.memWrite v w).regs = s.regs := rfl
@[simp] theorem State.memWrite_pc (v w : Word) : (s.memWrite v w).pc = s.pc := rfl
@[simp] theorem State.memWrite_mem (v w : Word) : (s.memWrite v w).mem = s.mem.write (cellOf v) w := rfl
@[simp] theorem State.memWrite_fcause (v w : Word) : (s.memWrite v w).fcause = s.fcause := rfl
@[simp] theorem State.memWrite_fpc (v w : Word) : (s.memWrite v w).fpc = s.fpc := rfl
@[simp] theorem State.memWrite_finstr (v w : Word) : (s.memWrite v w).finstr = s.finstr := rfl
@[simp] theorem State.memWrite_finfo (v w : Word) : (s.memWrite v w).finfo = s.finfo := rfl
@[simp] theorem State.memWrite_inq (v w : Word) : (s.memWrite v w).inq = s.inq := rfl
@[simp] theorem State.memWrite_inclosed (v w : Word) : (s.memWrite v w).inclosed = s.inclosed := rfl
@[simp] theorem State.memWrite_outLog (v w : Word) : (s.memWrite v w).outLog = s.outLog := rfl
@[simp] theorem State.memWrite_readReg (v w : Word) (r : RegIdx) : (s.memWrite v w).readReg r = s.readReg r := rfl

/-! ### `State.setPc` -/

@[simp] theorem State.setPc_regs (t : Word) : (s.setPc t).regs = s.regs := rfl
@[simp] theorem State.setPc_pc (t : Word) : (s.setPc t).pc = t := rfl
@[simp] theorem State.setPc_mem (t : Word) : (s.setPc t).mem = s.mem := rfl
@[simp] theorem State.setPc_fcause (t : Word) : (s.setPc t).fcause = s.fcause := rfl
@[simp] theorem State.setPc_fpc (t : Word) : (s.setPc t).fpc = s.fpc := rfl
@[simp] theorem State.setPc_finstr (t : Word) : (s.setPc t).finstr = s.finstr := rfl
@[simp] theorem State.setPc_finfo (t : Word) : (s.setPc t).finfo = s.finfo := rfl
@[simp] theorem State.setPc_inq (t : Word) : (s.setPc t).inq = s.inq := rfl
@[simp] theorem State.setPc_inclosed (t : Word) : (s.setPc t).inclosed = s.inclosed := rfl
@[simp] theorem State.setPc_outLog (t : Word) : (s.setPc t).outLog = s.outLog := rfl
@[simp] theorem State.setPc_readReg (t : Word) (r : RegIdx) : (s.setPc t).readReg r = s.readReg r := rfl

/-! ### `State.advance` -/

@[simp] theorem State.advance_regs : (s.advance).regs = s.regs := rfl
@[simp] theorem State.advance_pc : (s.advance).pc = word (signed s.pc + 1) := rfl
@[simp] theorem State.advance_mem : (s.advance).mem = s.mem := rfl
@[simp] theorem State.advance_fcause : (s.advance).fcause = s.fcause := rfl
@[simp] theorem State.advance_fpc : (s.advance).fpc = s.fpc := rfl
@[simp] theorem State.advance_finstr : (s.advance).finstr = s.finstr := rfl
@[simp] theorem State.advance_finfo : (s.advance).finfo = s.finfo := rfl
@[simp] theorem State.advance_inq : (s.advance).inq = s.inq := rfl
@[simp] theorem State.advance_inclosed : (s.advance).inclosed = s.inclosed := rfl
@[simp] theorem State.advance_outLog : (s.advance).outLog = s.outLog := rfl
@[simp] theorem State.advance_readReg (r : RegIdx) : (s.advance).readReg r = s.readReg r := rfl

/-! ### `State.haltEngine` -/

@[simp] theorem State.haltEngine_regs : (s.haltEngine).regs = s.regs := rfl
@[simp] theorem State.haltEngine_pc : (s.haltEngine).pc = minusOne := rfl
@[simp] theorem State.haltEngine_mem : (s.haltEngine).mem = s.mem := rfl
@[simp] theorem State.haltEngine_fcause : (s.haltEngine).fcause = s.fcause := rfl
@[simp] theorem State.haltEngine_fpc : (s.haltEngine).fpc = s.fpc := rfl
@[simp] theorem State.haltEngine_finstr : (s.haltEngine).finstr = s.finstr := rfl
@[simp] theorem State.haltEngine_finfo : (s.haltEngine).finfo = s.finfo := rfl
@[simp] theorem State.haltEngine_inq : (s.haltEngine).inq = s.inq := rfl
@[simp] theorem State.haltEngine_inclosed : (s.haltEngine).inclosed = s.inclosed := rfl
@[simp] theorem State.haltEngine_outLog : (s.haltEngine).outLog = s.outLog := rfl
@[simp] theorem State.haltEngine_readReg (r : RegIdx) : (s.haltEngine).readReg r = s.readReg r := rfl

/-! ### `State.outWrite` -/

@[simp] theorem State.outWrite_regs (b : Byte) : (s.outWrite b).regs = s.regs := rfl
@[simp] theorem State.outWrite_pc (b : Byte) : (s.outWrite b).pc = s.pc := rfl
@[simp] theorem State.outWrite_mem (b : Byte) : (s.outWrite b).mem = s.mem := rfl
@[simp] theorem State.outWrite_fcause (b : Byte) : (s.outWrite b).fcause = s.fcause := rfl
@[simp] theorem State.outWrite_fpc (b : Byte) : (s.outWrite b).fpc = s.fpc := rfl
@[simp] theorem State.outWrite_finstr (b : Byte) : (s.outWrite b).finstr = s.finstr := rfl
@[simp] theorem State.outWrite_finfo (b : Byte) : (s.outWrite b).finfo = s.finfo := rfl
@[simp] theorem State.outWrite_inq (b : Byte) : (s.outWrite b).inq = s.inq := rfl
@[simp] theorem State.outWrite_inclosed (b : Byte) : (s.outWrite b).inclosed = s.inclosed := rfl
@[simp] theorem State.outWrite_outLog (b : Byte) : (s.outWrite b).outLog = s.outLog ++ [b] := rfl
@[simp] theorem State.outWrite_readReg (b : Byte) (r : RegIdx) : (s.outWrite b).readReg r = s.readReg r := rfl

/-! ### `State.faultEntry` -/

@[simp] theorem State.faultEntry_regs (c : FaultCause) (iw info : Word) : (s.faultEntry c iw info).regs = s.regs := rfl
@[simp] theorem State.faultEntry_pc (c : FaultCause) (iw info : Word) : (s.faultEntry c iw info).pc = minusOne := rfl
@[simp] theorem State.faultEntry_mem (c : FaultCause) (iw info : Word) : (s.faultEntry c iw info).mem = s.mem := rfl
@[simp] theorem State.faultEntry_fcause (c : FaultCause) (iw info : Word) : (s.faultEntry c iw info).fcause = c.code := rfl
@[simp] theorem State.faultEntry_fpc (c : FaultCause) (iw info : Word) : (s.faultEntry c iw info).fpc = s.pc := rfl
@[simp] theorem State.faultEntry_finstr (c : FaultCause) (iw info : Word) : (s.faultEntry c iw info).finstr = iw := rfl
@[simp] theorem State.faultEntry_finfo (c : FaultCause) (iw info : Word) : (s.faultEntry c iw info).finfo = info := rfl
@[simp] theorem State.faultEntry_inq (c : FaultCause) (iw info : Word) : (s.faultEntry c iw info).inq = s.inq := rfl
@[simp] theorem State.faultEntry_inclosed (c : FaultCause) (iw info : Word) : (s.faultEntry c iw info).inclosed = s.inclosed := rfl
@[simp] theorem State.faultEntry_outLog (c : FaultCause) (iw info : Word) : (s.faultEntry c iw info).outLog = s.outLog := rfl
@[simp] theorem State.faultEntry_readReg (c : FaultCause) (iw info : Word) (r : RegIdx) : (s.faultEntry c iw info).readReg r = s.readReg r := rfl

/-! ### `State.raise` -/

@[simp] theorem State.raise_regs (c : FaultCause) (info : Word) : (s.raise c info).regs = s.regs := rfl
@[simp] theorem State.raise_pc (c : FaultCause) (info : Word) : (s.raise c info).pc = minusOne := rfl
@[simp] theorem State.raise_mem (c : FaultCause) (info : Word) : (s.raise c info).mem = s.mem := rfl
@[simp] theorem State.raise_fcause (c : FaultCause) (info : Word) : (s.raise c info).fcause = c.code := rfl
@[simp] theorem State.raise_fpc (c : FaultCause) (info : Word) : (s.raise c info).fpc = s.pc := rfl
@[simp] theorem State.raise_finstr (c : FaultCause) (info : Word) : (s.raise c info).finstr = s.memRead s.pc := rfl
@[simp] theorem State.raise_finfo (c : FaultCause) (info : Word) : (s.raise c info).finfo = info := rfl
@[simp] theorem State.raise_inq (c : FaultCause) (info : Word) : (s.raise c info).inq = s.inq := rfl
@[simp] theorem State.raise_inclosed (c : FaultCause) (info : Word) : (s.raise c info).inclosed = s.inclosed := rfl
@[simp] theorem State.raise_outLog (c : FaultCause) (info : Word) : (s.raise c info).outLog = s.outLog := rfl
@[simp] theorem State.raise_readReg (c : FaultCause) (info : Word) (r : RegIdx) : (s.raise c info).readReg r = s.readReg r := rfl

/-! ### The moves from outside -/

@[simp] theorem State.resetEvent_regs (r : Nat → Word) : (s.resetEvent r).regs = registerFile r := rfl
@[simp] theorem State.resetEvent_pc (r : Nat → Word) : (s.resetEvent r).pc = 0#32 := rfl
@[simp] theorem State.resetEvent_mem (r : Nat → Word) : (s.resetEvent r).mem = s.mem := rfl
@[simp] theorem State.resetEvent_fcause (r : Nat → Word) : (s.resetEvent r).fcause = 0#3 := rfl
@[simp] theorem State.resetEvent_fpc (r : Nat → Word) : (s.resetEvent r).fpc = 0#32 := rfl
@[simp] theorem State.resetEvent_finstr (r : Nat → Word) : (s.resetEvent r).finstr = 0#32 := rfl
@[simp] theorem State.resetEvent_finfo (r : Nat → Word) : (s.resetEvent r).finfo = 0#32 := rfl
@[simp] theorem State.resetEvent_inq (r : Nat → Word) : (s.resetEvent r).inq = s.inq := rfl
@[simp] theorem State.resetEvent_inclosed (r : Nat → Word) : (s.resetEvent r).inclosed = s.inclosed := rfl
@[simp] theorem State.resetEvent_outLog (r : Nat → Word) : (s.resetEvent r).outLog = s.outLog := rfl
@[simp] theorem State.resetEvent_readReg (r : Nat → Word) (i : RegIdx) : (s.resetEvent r).readReg i = r i.toNat := by
  show ((List.range 32).map r)[i.toNat]'(by simpa using i.isLt) = r i.toNat
  simp

@[simp] theorem State.closeInput_regs : s.closeInput.regs = s.regs := rfl
@[simp] theorem State.closeInput_pc : s.closeInput.pc = s.pc := rfl
@[simp] theorem State.closeInput_mem : s.closeInput.mem = s.mem := rfl
@[simp] theorem State.closeInput_fcause : s.closeInput.fcause = s.fcause := rfl
@[simp] theorem State.closeInput_fpc : s.closeInput.fpc = s.fpc := rfl
@[simp] theorem State.closeInput_finstr : s.closeInput.finstr = s.finstr := rfl
@[simp] theorem State.closeInput_finfo : s.closeInput.finfo = s.finfo := rfl
@[simp] theorem State.closeInput_inq : s.closeInput.inq = s.inq := rfl
@[simp] theorem State.closeInput_inclosed : s.closeInput.inclosed = true := rfl
@[simp] theorem State.closeInput_outLog : s.closeInput.outLog = s.outLog := rfl

@[simp] theorem State.supplyInput_regs (w : Word) : (s.supplyInput w).regs = s.regs := by
  cases h : s.inclosed <;> simp [State.supplyInput, h]
@[simp] theorem State.supplyInput_pc (w : Word) : (s.supplyInput w).pc = s.pc := by
  cases h : s.inclosed <;> simp [State.supplyInput, h]
@[simp] theorem State.supplyInput_mem (w : Word) : (s.supplyInput w).mem = s.mem := by
  cases h : s.inclosed <;> simp [State.supplyInput, h]
@[simp] theorem State.supplyInput_fcause (w : Word) : (s.supplyInput w).fcause = s.fcause := by
  cases h : s.inclosed <;> simp [State.supplyInput, h]
@[simp] theorem State.supplyInput_fpc (w : Word) : (s.supplyInput w).fpc = s.fpc := by
  cases h : s.inclosed <;> simp [State.supplyInput, h]
@[simp] theorem State.supplyInput_finstr (w : Word) : (s.supplyInput w).finstr = s.finstr := by
  cases h : s.inclosed <;> simp [State.supplyInput, h]
@[simp] theorem State.supplyInput_finfo (w : Word) : (s.supplyInput w).finfo = s.finfo := by
  cases h : s.inclosed <;> simp [State.supplyInput, h]
theorem State.supplyInput_inq (w : Word) :
    (s.supplyInput w).inq = if s.inclosed then s.inq else s.inq ++ [w] := by
  cases h : s.inclosed <;> simp [State.supplyInput, h]
@[simp] theorem State.supplyInput_inclosed (w : Word) : (s.supplyInput w).inclosed = s.inclosed := by
  cases h : s.inclosed <;> simp [State.supplyInput, h]
@[simp] theorem State.supplyInput_outLog (w : Word) : (s.supplyInput w).outLog = s.outLog := by
  cases h : s.inclosed <;> simp [State.supplyInput, h]

/-! ### Reads of a register after a register write -/

@[simp] theorem State.writeReg_readReg_self (i : RegIdx) (v : Word) : (s.writeReg i v).readReg i = v := by
  simp [State.readReg]

theorem State.writeReg_readReg_other (i r : RegIdx) (v : Word) (h : r ≠ i) :
    (s.writeReg i v).readReg r = s.readReg r := by
  have hn : i.toNat ≠ r.toNat := fun e => h (BitVec.eq_of_toNat_eq e.symm)
  simp [State.readReg, hn]

/-- What a register write does to every register. -/
theorem State.writeReg_readReg (i r : RegIdx) (v : Word) :
    (s.writeReg i v).readReg r = if r = i then v else s.readReg r := by
  by_cases h : r = i
  · subst h; simp
  · rw [if_neg h, State.writeReg_readReg_other s i r v h]

/-- Two states with the same fields are the same state. -/
theorem State.ext_fields (s t : State) (h0 : s.regs = t.regs) (h1 : s.pc = t.pc) (h2 : s.mem = t.mem)
    (h3 : s.fcause = t.fcause) (h4 : s.fpc = t.fpc) (h5 : s.finstr = t.finstr) (h6 : s.finfo = t.finfo)
    (h7 : s.inq = t.inq) (h8 : s.inclosed = t.inclosed) (h9 : s.outLog = t.outLog) : s = t := by
  cases s; cases t; simp_all

/-- A register file is what its 32 reads say. -/
theorem State.regs_ext (s t : State) (h : ∀ r, s.readReg r = t.readReg r) : s.regs = t.regs := by
  apply Vector.ext
  intro k hk
  have := h (BitVec.ofNat 5 k)
  simpa [State.readReg, Nat.mod_eq_of_lt hk] using this

end Sys2Proof.Machine
end

