-- ==== Sys2Proof/Laws/Ops.lean ====
section
/-! SUPPORT. For each shared operation one lemma that says all it does, and for `exec` and `step` one inversion lemma: if it
answers a next state, one of these cases holds. Later proofs cite these and unfold nothing. -/

namespace Sys2Proof.Machine

/-! ### Addresses -/

/-- The range check as a fact about the signed reading (R31). -/
theorem validAddr_iff (v : Word) : validAddr v = true ↔ InRange v := by
  simp only [validAddr, InRange, Bool.and_eq_true, decide_eq_true_eq, Config.memWords]
  constructor <;> intro h <;> exact ⟨h.1, by omega⟩

theorem validAddr_false_iff (v : Word) : validAddr v = false ↔ ¬ InRange v := by
  rw [← validAddr_iff, Bool.not_eq_true]

/-- A valid address names a cell of the machine. -/
theorem cellOf_lt {v : Word} (h : InRange v) : cellOf v < Config.memWords := by
  obtain ⟨h0, h1⟩ := h
  simp only [cellOf, Config.memWords] at *
  omega

/-! ### Fault entry -/

/-- All that fault entry does (R156). -/
theorem faultEntry_spec (s : State) (c : FaultCause) (iw info : Word) :
    TakesFault c.code iw info s (s.faultEntry c iw info) :=
  ⟨rfl, rfl, rfl, rfl, rfl, fun _ => rfl, fun _ => rfl, ⟨rfl, rfl⟩, rfl⟩

/-- All that a raise inside an instruction does: fault entry with the word at the pc. -/
theorem raise_spec (s : State) (c : FaultCause) (info : Word) :
    TakesFault c.code (wordAtPc s) info s (s.raise c info) :=
  faultEntry_spec s c (wordAtPc s) info

/-- No cause code is 0, the code of "no fault" (R151). -/
theorem code_ne_zero (c : FaultCause) : c.code ≠ 0#3 := by cases c <;> decide

/-! ### Completing, branching, the ports -/

/-- All that writing back does: one register, the pc, nothing else. -/
theorem writeBack_spec (x : RegIdx) (v : Word) (s : State) :
    ∃ t, writeBack x v s = .next t ∧ WritesRegister x v s t :=
  ⟨_, rfl, ⟨State.writeReg_readReg_self s x v, fun r h => State.writeReg_readReg_other s x r v h⟩, rfl, fun _ => rfl,
    ⟨rfl, rfl, rfl, rfl⟩, ⟨rfl, rfl⟩, rfl⟩

/-- The data address is the register's content, in range, or there is none (R122). -/
theorem dataAddr_cases (s : State) (y : RegIdx) :
    (InRange (s.readReg y) ∧ dataAddr s y = some (s.readReg y)) ∨ (¬ InRange (s.readReg y) ∧ dataAddr s y = none) := by
  by_cases h : InRange (s.readReg y)
  · exact .inl ⟨h, if_pos ((validAddr_iff _).mpr h)⟩
  · exact .inr ⟨h, if_neg (fun e => h ((validAddr_iff _).mp e))⟩

/-- A transfer goes to R[x] when it is in range, else it takes MemoryFault(R[x]) (R134). -/
theorem transfer_cases (x : RegIdx) (s : State) :
    (InRange (s.readReg x) ∧ transfer x s = .next (s.setPc (s.readReg x))) ∨
      (¬ InRange (s.readReg x) ∧ transfer x s = .next (s.raise .memory (s.readReg x))) := by
  by_cases h : InRange (s.readReg x)
  · exact .inl ⟨h, by rw [transfer, jumpTarget, if_pos ((validAddr_iff _).mpr h)]⟩
  · exact .inr ⟨h, by rw [transfer, jumpTarget, if_neg (fun e => h ((validAddr_iff _).mp e))]⟩

/-- What the input port answers, and what it leaves (R142). -/
theorem inRead_cases (s : State) :
    (∃ w rest, s.inq = w :: rest ∧ s.inRead = (.value w, { s with inq := rest })) ∨
      (s.inq = [] ∧ s.inclosed = true ∧ s.inRead = (.closed, s)) ∨
      (s.inq = [] ∧ s.inclosed = false ∧ s.inRead = (.notReady, s)) := by
  unfold State.inRead
  cases hq : s.inq with
  | cons w rest => exact .inl ⟨w, rest, rfl, rfl⟩
  | nil =>
    cases hc : s.inclosed with
    | true => exact .inr (.inl ⟨rfl, rfl, rfl⟩)
    | false => exact .inr (.inr ⟨rfl, rfl, rfl⟩)

/-- The operands on which the divider faults (R107). -/
theorem divFaults_iff (a b : Word) :
    divFaults a b = true ↔ signed b = 0 ∨ (signed a = -(2 ^ 31) ∧ signed b = -1) := by
  simp [divFaults]

/-! ### What an instruction can do -/

/-- The faults that an instruction's own check can raise, with their info word (R151). -/
inductive RaisesFault (s : State) : Instr → FaultCause → Word → Prop
  | div (x y z) (h : divFaults (s.readReg y) (s.readReg z) = true) : RaisesFault s (.div x y z) .arithmetic (s.readReg z)
  | mod (x y z) (h : divFaults (s.readReg y) (s.readReg z) = true) : RaisesFault s (.mod x y z) .arithmetic (s.readReg z)
  | load (x y) (h : ¬ InRange (s.readReg y)) : RaisesFault s (.load x y) .memory (s.readReg y)
  | store (x y) (h : ¬ InRange (s.readReg y)) : RaisesFault s (.store x y) .memory (s.readReg y)
  | goto (x) (h : ¬ InRange (s.readReg x)) : RaisesFault s (.goto x) .memory (s.readReg x)
  | ifeq (x y z) (h : ¬ InRange (s.readReg x)) : RaisesFault s (.ifeq x y z) .memory (s.readReg x)
  | iflt (x y z) (h : ¬ InRange (s.readReg x)) : RaisesFault s (.iflt x y z) .memory (s.readReg x)
  | inp (x) (hq : s.inq = []) (hc : s.inclosed = true) : RaisesFault s (.inp x) .io 0#32

/-- All that a completing instruction can do to the state. -/
inductive Completes (s : State) : Instr → State → Prop
  /-- It writes its destination register and advances. -/
  | reg (i x v) (hw : regWritten i = some x) (hi : ∀ q, i ≠ .inp q) : Completes s i (s.writeReg x v).advance
  /-- `in` consumes the head of the input stream. -/
  | input (x w rest) (hq : s.inq = w :: rest) :
      Completes s (.inp x) (({ s with inq := rest } : State).writeReg x w).advance
  /-- `store` writes the cell R[y]. -/
  | store (x y) (h : InRange (s.readReg y)) :
      Completes s (.store x y) (s.memWrite (s.readReg y) (s.readReg x)).advance
  /-- `out` appends a byte. -/
  | output (x) : Completes s (.out x) (s.outWrite ((s.readReg x).extractLsb' 0 8)).advance
  /-- A taken transfer. -/
  | goto (x) (h : InRange (s.readReg x)) : Completes s (.goto x) (s.setPc (s.readReg x))
  /-- A taken `ifeq`. -/
  | ifeq (x y z) (h : InRange (s.readReg x)) : Completes s (.ifeq x y z) (s.setPc (s.readReg x))
  /-- A taken `iflt`. -/
  | iflt (x y z) (h : InRange (s.readReg x)) : Completes s (.iflt x y z) (s.setPc (s.readReg x))
  /-- An `ifeq` not taken. -/
  | ifeqNot (x y z) : Completes s (.ifeq x y z) s.advance
  /-- An `iflt` not taken. -/
  | ifltNot (x y z) : Completes s (.iflt x y z) s.advance
  /-- `halt`. -/
  | halt : Completes s .halt s.haltEngine

/-- If an instruction answers a next state, it has completed or has taken one of its faults. -/
theorem exec_cases {i : Instr} {s t : State} (h : exec i s = .next t) :
    Completes s i t ∨ ∃ c info, RaisesFault s i c info ∧ t = s.raise c info := by
  have reg {x : RegIdx} {v : Word} (i : Instr) (hw : regWritten i = some x) (hi : ∀ q, i ≠ .inp q)
      (h : writeBack x v s = .next t) : Completes s i t ∨ ∃ c info, RaisesFault s i c info ∧ t = s.raise c info := by
    cases h; exact .inl (.reg i x v hw hi)
  cases i with
  | add x y z => exact reg _ rfl (by simp) h
  | sub x y z => exact reg _ rfl (by simp) h
  | mul x y z => exact reg _ rfl (by simp) h
  | and x y z => exact reg _ rfl (by simp) h
  | or x y z => exact reg _ rfl (by simp) h
  | not x y => exact reg _ rfl (by simp) h
  | const x c => exact reg _ rfl (by simp) h
  | sll x y sh => exact reg _ rfl (by simp) h
  | div x y z =>
    simp only [exec, execDiv, divider] at h
    split at h
    · next hd => cases h; exact .inr ⟨_, _, .div x y z hd, rfl⟩
    · exact reg _ rfl (by simp) h
  | mod x y z =>
    simp only [exec, execMod, divider] at h
    split at h
    · next hd => cases h; exact .inr ⟨_, _, .mod x y z hd, rfl⟩
    · exact reg _ rfl (by simp) h
  | load x y =>
    simp only [exec, execLoad] at h
    rcases dataAddr_cases s y with ⟨hr, e⟩ | ⟨hr, e⟩ <;> rw [e] at h
    · exact reg _ rfl (by simp) h
    · cases h; exact .inr ⟨_, _, .load x y hr, rfl⟩
  | store x y =>
    simp only [exec, execStore] at h
    rcases dataAddr_cases s y with ⟨hr, e⟩ | ⟨hr, e⟩ <;> rw [e] at h <;> cases h
    · exact .inl (.store x y hr)
    · exact .inr ⟨_, _, .store x y hr, rfl⟩
  | goto x =>
    simp only [exec, execGoto] at h
    rcases transfer_cases x s with ⟨hr, e⟩ | ⟨hr, e⟩ <;> rw [e] at h <;> cases h
    · exact .inl (.goto x hr)
    · exact .inr ⟨_, _, .goto x hr, rfl⟩
  | ifeq x y z =>
    simp only [exec, execIfeq, branch] at h
    split at h
    · rcases transfer_cases x s with ⟨hr, e⟩ | ⟨hr, e⟩ <;> rw [e] at h <;> cases h
      · exact .inl (.ifeq x y z hr)
      · exact .inr ⟨_, _, .ifeq x y z hr, rfl⟩
    · cases h; exact .inl (.ifeqNot x y z)
  | iflt x y z =>
    simp only [exec, execIflt, branch] at h
    split at h
    · rcases transfer_cases x s with ⟨hr, e⟩ | ⟨hr, e⟩ <;> rw [e] at h <;> cases h
      · exact .inl (.iflt x y z hr)
      · exact .inr ⟨_, _, .iflt x y z hr, rfl⟩
    · cases h; exact .inl (.ifltNot x y z)
  | halt => cases h; exact .inl .halt
  | inp x =>
    simp only [exec, execIn] at h
    rcases inRead_cases s with ⟨w, rest, hq, e⟩ | ⟨hq, hc, e⟩ | ⟨-, -, e⟩ <;> rw [e] at h <;> cases h
    · exact .inl (.input x w rest hq)
    · exact .inr ⟨_, _, .inp x hq hc, rfl⟩
  | out x => cases h; exact .inl (.output x)

/-! ### What a step can do -/

/-- A step takes place only while Running; it is a fetch fault, an unknown opcode fault, or the body of the instruction
at the pc (R80, R158). -/
theorem step_cases {s t : State} (h : step s = .next t) :
    Running s ∧
      ((¬ InRange s.pc ∧ t = fetchFault s) ∨
        (∃ op, InRange s.pc ∧ decode (wordAtPc s) = .error (.unknownOpcode op) ∧ t = unknownOpcodeFault s op) ∨
        (∃ i, AtInstr s i ∧ exec i s = .next t)) := by
  unfold step at h
  split at h
  · cases h
  · next hh =>
    have hrun : Running s := by
      simp only [State.isHalted, decide_eq_true_eq] at hh
      simp only [Running]; omega
    refine ⟨hrun, ?_⟩
    by_cases hv : InRange s.pc
    · have e : fetch s = some (wordAtPc s) := if_pos ((validAddr_iff _).mpr hv)
      rw [e] at h
      dsimp only at h
      split at h
      · next op hd => cases h; exact .inr (.inl ⟨op, hv, hd, rfl⟩)
      · next i hd => exact .inr (.inr ⟨i, ⟨hv, hd⟩, h⟩)
    · have e : fetch s = none := if_neg (fun e => hv ((validAddr_iff _).mp e))
      rw [e] at h
      cases h
      exact .inl ⟨hv, rfl⟩

/-- Placing a word at a valid pc is what the next fetch reads. -/
theorem fetch_placeAtPc (s : State) (iw : Word) (h : InRange s.pc) : fetch (s.placeAtPc iw) = some iw := by
  have hv := (validAddr_iff _).mpr h
  rw [State.placeAtPc, if_pos hv, fetch, State.memWrite_pc, if_pos hv]
  simp only [State.memRead, State.memWrite_mem, Memory.read_write_self]

/-! ### What a run does -/

/-- A run of n + 1 steps whose first step answers u goes on from u. -/
theorem run_next (M : Host.Core) {n : Nat} {s u : M.State} (h : M.step s = .next u) : M.run (n + 1) s = M.run n u := by
  rw [Host.Core.run, h]

/-- A run of n + 1 steps that answers a next state has a first step. -/
theorem run_inv (M : Host.Core) {n : Nat} {s t : M.State} (h : M.run (n + 1) s = .next t) :
    ∃ u, M.step s = .next u ∧ M.run n u = .next t := by
  rw [Host.Core.run] at h
  split at h
  · next u hu => exact ⟨u, hu, h⟩
  · cases h
  · cases h

/-- `run_next` for this machine. -/
theorem run_succ_of_step {n : Nat} {s u : State} (h : step s = .next u) :
    Host.Core.run core (n + 1) s = Host.Core.run core n u := run_next core h

/-- `run_inv` for this machine. -/
theorem run_succ_cases {n : Nat} {s t : State} (h : Host.Core.run core (n + 1) s = .next t) :
    ∃ u, step s = .next u ∧ Host.Core.run core n u = .next t := run_inv core h

/-! ### Runs in their environment -/

@[simp] theorem State.moves_nil (s : State) : s.moves [] = some s := rfl

/-- A sequence of moves that ends somewhere has a first move. -/
theorem State.moves_cons_cases {s t : State} {m : Move} {ms : List Move} (h : s.moves (m :: ms) = some t) :
    ∃ u, s.move m = some u ∧ u.moves ms = some t := Option.bind_eq_some_iff.mp h

/-- The same sequence from its first move on. -/
theorem State.moves_cons_of_move {s u : State} {m : Move} (ms : List Move) (h : s.move m = some u) :
    s.moves (m :: ms) = u.moves ms := by rw [State.moves, h, Option.bind_some]

/-- All that one move can be: a step of the core, or a supplier's move. -/
theorem State.move_cases {s t : State} {m : Move} (h : s.move m = some t) :
    (m = .step ∧ step s = .next t) ∨ (∃ w, m = .supply w ∧ t = s.supplyInput w) ∨ (m = .close ∧ t = s.closeInput) := by
  cases m with
  | step =>
    rw [State.move] at h
    split at h
    · next u hu => cases h; exact .inl ⟨rfl, hu⟩
    · cases h
    · cases h
  | supply w => cases h; exact .inr (.inl ⟨w, rfl, rfl⟩)
  | close => cases h; exact .inr (.inr ⟨rfl, rfl⟩)

/-- The moves after the first store to the cell of p no more than all of them do. -/
theorem NoStoreTo.tail {p : Word} {m : Move} {ms : List Move} {s u : State} (h : NoStoreTo p (m :: ms) s)
    (hm : s.move m = some u) : NoStoreTo p ms u := fun before after v e hv =>
  h (m :: before) after v (by rw [e, List.cons_append]) (by rw [State.moves_cons_of_move before hm]; exact hv)

end Sys2Proof.Machine
end

