-- ==== Sys2Proof/Laws/PerInstr.lean ====
section
/-! SUPPORT. One statement about each instruction as syntax, one lemma per constructor: the word the encoder writes has the
opcode and the ignored bits that the opcode map and the canonical encoding give it. -/

namespace Sys2Proof.Laws.CanonicalEncoding

open Sys2Proof.Machine

/-- The canonical word carries the instruction's opcode in bits 31:27 (R58) and has every ignored bit zero (R62). -/
def Statement (i : Instr) : Prop :=
  opcodeNumber (encode i) = opcodeOf i ∧ unsigned (encode i) % 2 ^ ignoredBits (opcodeOf i) = 0

/-- What `encodeXYZ` is as a number (R55). -/
theorem encodeXYZ_toNat (op x y z : BitVec 5) :
    (encodeXYZ op x y z).toNat = op.toNat * 2 ^ 27 + x.toNat * 2 ^ 22 + y.toNat * 2 ^ 17 + z.toNat * 2 ^ 12 :=
  (wordXYZ_toNat op x y z 0#12).trans (by simp)

/-- What `encodeConst` is as a number (R56). -/
theorem encodeConst_toNat (op x : BitVec 5) (c : Imm22) :
    (encodeConst op x c).toNat = op.toNat * 2 ^ 27 + x.toNat * 2 ^ 22 + c.toNat := wordX_toNat op x c

/-- The statement for a word of the XYZ shape, from its number. -/
theorem of_xyz (i : Instr) (op : Nat) (ho : op < 32) (x y z : BitVec 5) (he : encode i = encodeXYZ (BitVec.ofNat 5 op) x y z)
    (hi : opcodeOf i = op)
    (hz : (x.toNat * 2 ^ 22 + y.toNat * 2 ^ 17 + z.toNat * 2 ^ 12) % 2 ^ ignoredBits op = 0)
    (hb : ignoredBits op ≤ 27) : Statement i := by
  have h := encodeXYZ_toNat (BitVec.ofNat 5 op) x y z
  have hop : (BitVec.ofNat 5 op).toNat = op := by rw [BitVec.toNat_ofNat]; omega
  have := x.isLt; have := y.isLt; have := z.isLt
  rw [hop] at h
  refine ⟨?_, ?_⟩
  · rw [he, hi, opcodeNumber, unsigned, h]; omega
  · have hd : (op * 2 ^ 27) % 2 ^ ignoredBits op = 0 :=
      Nat.mod_eq_zero_of_dvd (Dvd.dvd.mul_left (Nat.pow_dvd_pow 2 hb) op)
    rw [he, hi, unsigned, h, Nat.add_assoc, Nat.add_assoc, Nat.add_mod, hd, ← Nat.add_assoc, hz]
    simp

theorem add (x y z : RegIdx) : Statement (.add x y z) :=
  of_xyz _ 1 (by decide) x y z rfl rfl (by simp [ignoredBits]; omega) (by decide)
theorem sub (x y z : RegIdx) : Statement (.sub x y z) :=
  of_xyz _ 2 (by decide) x y z rfl rfl (by simp [ignoredBits]; omega) (by decide)
theorem mul (x y z : RegIdx) : Statement (.mul x y z) :=
  of_xyz _ 3 (by decide) x y z rfl rfl (by simp [ignoredBits]; omega) (by decide)
theorem div (x y z : RegIdx) : Statement (.div x y z) :=
  of_xyz _ 4 (by decide) x y z rfl rfl (by simp [ignoredBits]; omega) (by decide)
theorem mod (x y z : RegIdx) : Statement (.mod x y z) :=
  of_xyz _ 5 (by decide) x y z rfl rfl (by simp [ignoredBits]; omega) (by decide)
theorem and (x y z : RegIdx) : Statement (.and x y z) :=
  of_xyz _ 6 (by decide) x y z rfl rfl (by simp [ignoredBits]; omega) (by decide)
theorem or (x y z : RegIdx) : Statement (.or x y z) :=
  of_xyz _ 7 (by decide) x y z rfl rfl (by simp [ignoredBits]; omega) (by decide)
theorem not (x y : RegIdx) : Statement (.not x y) :=
  of_xyz _ 8 (by decide) x y 0#5 rfl rfl (by simp [ignoredBits]; omega) (by decide)
theorem const (x : RegIdx) (c : Imm22) : Statement (.const x c) := by
  have h := encodeConst_toNat 9#5 x c
  have := x.isLt; have := c.isLt
  refine ⟨?_, ?_⟩
  · show (encodeConst 9#5 x c).toNat / 2 ^ 27 = 9
    rw [h]; simp; omega
  · show (encodeConst 9#5 x c).toNat % 2 ^ 0 = 0
    omega
theorem sll (x y : RegIdx) (sh : Shamt) : Statement (.sll x y sh) :=
  of_xyz _ 10 (by decide) x y sh rfl rfl (by simp [ignoredBits]; omega) (by decide)
theorem load (x y : RegIdx) : Statement (.load x y) :=
  of_xyz _ 11 (by decide) x y 0#5 rfl rfl (by simp [ignoredBits]; omega) (by decide)
theorem store (x y : RegIdx) : Statement (.store x y) :=
  of_xyz _ 12 (by decide) x y 0#5 rfl rfl (by simp [ignoredBits]; omega) (by decide)
theorem goto (x : RegIdx) : Statement (.goto x) :=
  of_xyz _ 13 (by decide) x 0#5 0#5 rfl rfl (by simp [ignoredBits]) (by decide)
theorem ifeq (x y z : RegIdx) : Statement (.ifeq x y z) :=
  of_xyz _ 14 (by decide) x y z rfl rfl (by simp [ignoredBits]; omega) (by decide)
theorem iflt (x y z : RegIdx) : Statement (.iflt x y z) :=
  of_xyz _ 15 (by decide) x y z rfl rfl (by simp [ignoredBits]; omega) (by decide)
theorem halt : Statement .halt :=
  of_xyz _ 16 (by decide) 0#5 0#5 0#5 rfl rfl (by simp) (by decide)
theorem inp (x : RegIdx) : Statement (.inp x) :=
  of_xyz _ 17 (by decide) x 0#5 0#5 rfl rfl (by simp [ignoredBits]) (by decide)
theorem out (x : RegIdx) : Statement (.out x) :=
  of_xyz _ 18 (by decide) x 0#5 0#5 rfl rfl (by simp [ignoredBits]) (by decide)

end Sys2Proof.Laws.CanonicalEncoding
end

