-- ==== Sys2Proof/Tests/Slice0.lean ====
section
/-! SUPPORT. Tests of the model. Expected results come from spec/95_test_vectors.md (S1 to S10, parts 2.1 to 2.9) or, where a
comment says so, from the bit positions of R51 and R52 by hand. After them, one witness for every statement of
Certificates/Slice0/Obligations.lean that has hypotheses. -/

namespace Sys2Proof.Tests

open Sys2Proof Sys2Proof.Machine

/-! ### Helpers -/

/-- The word `iw` in cell 5 and the pc at 5; everything else as after reset. -/
def at5 (iw : Word) : State := { State.reset with pc := 5#32 }.placeAtPc iw

/-- `at5` with R1 and R2 set. -/
def at5With (iw r1 r2 : Word) : State := ((at5 iw).writeReg 1#5 r1).writeReg 2#5 r2

/-- The outcome is a next state that passes the check. -/
def nextIs (r : Result) (p : State → Bool) : Bool :=
  match r with
  | .next t => p t
  | _ => false

/-- After one step, R[x] holds v, the pc is 6 and no fault is recorded. -/
def wrote (x : RegIdx) (v : Word) (t : State) : Bool := t.readReg x == v && t.pc == 6#32 && t.fcause == 0#3

/-- After one step from pc 5, the fault record and the halted pc. -/
def faulted (code : BitVec 3) (iw info : Word) (t : State) : Bool :=
  t.fcause == code && t.fpc == 5#32 && t.finstr == iw && t.finfo == info && t.pc == 0xFFFFFFFF#32

/-! ### Decoding: each word is written out from the encoding, `op_x_y_z_ignored` or `op_x_c` (part 2.1) -/

theorem test_decode_add : decode 0b00001_00011_00001_00010_111111111111#32 = .ok (.add 3 1 2) := by decide
theorem test_decode_sub : decode 0b00010_00011_00001_00010_000000000000#32 = .ok (.sub 3 1 2) := by decide
theorem test_decode_mul : decode 0b00011_00011_00001_00010_000000000000#32 = .ok (.mul 3 1 2) := by decide
theorem test_decode_div : decode 0b00100_00011_00001_00010_000000000000#32 = .ok (.div 3 1 2) := by decide
theorem test_decode_mod : decode 0b00101_00011_00001_00010_000000000000#32 = .ok (.mod 3 1 2) := by decide
theorem test_decode_and : decode 0b00110_00011_00001_00010_000000000000#32 = .ok (.and 3 1 2) := by decide
theorem test_decode_or : decode 0b00111_00011_00001_00010_000000000000#32 = .ok (.or 3 1 2) := by decide
theorem test_decode_not : decode 0b01000_00001_00010_00001_101010111100#32 = .ok (.not 1 2) := by decide
theorem test_decode_const : decode 0b01001_00111_1111111111111111111111#32 = .ok (.const 7 4194303) := by decide
theorem test_decode_sll : decode 0b01010_00001_00001_11011_000000000000#32 = .ok (.sll 1 1 27) := by decide
theorem test_decode_load : decode 0b01011_00010_00001_00000_000000000000#32 = .ok (.load 2 1) := by decide
theorem test_decode_store : decode 0b01100_00010_00001_00000_000000000000#32 = .ok (.store 2 1) := by decide
theorem test_decode_goto : decode 0b01101_01100_00000_00000_000100100011#32 = .ok (.goto 12) := by decide
theorem test_decode_ifeq : decode 0b01110_00100_00001_00010_000000000000#32 = .ok (.ifeq 4 1 2) := by decide
theorem test_decode_iflt : decode 0b01111_00100_00001_00010_000000000000#32 = .ok (.iflt 4 1 2) := by decide
theorem test_decode_halt : decode 0b10000_11111_11111_11111_111111111111#32 = .ok .halt := by decide
theorem test_decode_in : decode 0b10001_00001_00000_00000_000000000000#32 = .ok (.inp 1) := by decide
theorem test_decode_out : decode 0b10010_11111_11111_11111_111111111111#32 = .ok (.out 31) := by decide
theorem test_decode_refuses_unassigned :
    decode 0x07FFFFFF#32 = .error (.unknownOpcode 0) ∧ decode 0x9FC00000#32 = .error (.unknownOpcode 19) ∧
    decode 0xFFFFFFFF#32 = .error (.unknownOpcode 31) := by decide

/-- The two encoders (S1, S2). -/
theorem test_encode_words :
    encode (.const 31 4096) = 0x4FC01000#32 ∧ encode (.sll 1 2 3) = 0x50443000#32 ∧
    encode (.ifeq 4 1 2) = 0x71022000#32 ∧ encode (.iflt 31 31 31) = 0x7FFFF000#32 ∧ encode (.inp 1) = 0x88400000#32 := by
  decide

/-- Words numbered as the opcode table numbers them, and one it refuses. -/
theorem test_table_word :
    decodeTableWord 32 0x08C22000 = some (.add 3 1 2) ∧ decodeTableWord 32 0 = none := by decide

/-! ### The range checks of WellFormed: an ill-formed call for each check, refused (R55, R56, D16) -/

theorem test_wf_xyz_op : (EncoderCall.xyz 32 0 0 0).wf = false ∧ (EncoderCall.xyz 32 0 0 0).encode = none := by decide
theorem test_wf_xyz_x : (EncoderCall.xyz 1 32 0 0).wf = false ∧ (EncoderCall.xyz 1 32 0 0).encode = none := by decide
theorem test_wf_xyz_y : (EncoderCall.xyz 1 0 32 0).wf = false ∧ (EncoderCall.xyz 1 0 32 0).encode = none := by decide
theorem test_wf_xyz_z : (EncoderCall.xyz 1 0 0 32).wf = false ∧ (EncoderCall.xyz 1 0 0 32).encode = none := by decide
theorem test_wf_const_op : (EncoderCall.const 32 0 0).wf = false ∧ (EncoderCall.const 32 0 0).encode = none := by decide
theorem test_wf_const_x : (EncoderCall.const 9 32 0).wf = false ∧ (EncoderCall.const 9 32 0).encode = none := by decide
theorem test_wf_const_c :
    (EncoderCall.const 9 1 4194304).wf = false ∧ (EncoderCall.const 9 1 4194304).encode = none := by decide
theorem test_wf_accepts_the_ends :
    (EncoderCall.xyz 31 31 31 31).wf = true ∧ (EncoderCall.const 9 7 4194303).encode = some 0x49FFFFFF#32 := by decide

/-! ### One step of each instruction -/

/-- Part 2.3. -/
theorem test_add_wraps :
    nextIs (step (at5With 0x08C22000#32 0x7FFFFFFF#32 1#32)) (wrote 3 0x80000000#32) = true := by decide
/-- Part 2.3, same register in every position. -/
theorem test_add_same_register :
    nextIs (step (at5With 0x08421000#32 0x40000000#32 0#32)) (wrote 1 0x80000000#32) = true := by decide
theorem test_sub_order : nextIs (step (at5With 0x10C22000#32 3#32 5#32)) (wrote 3 0xFFFFFFFE#32) = true := by decide
theorem test_mul_wraps :
    nextIs (step (at5With 0x18C22000#32 0xB505#32 0xB505#32)) (wrote 3 0x80001219#32) = true := by decide
theorem test_mul_signed :
    nextIs (step (at5With 0x18C22000#32 0xFFFFFFFD#32 7#32)) (wrote 3 0xFFFFFFEB#32) = true := by decide
theorem test_div_toward_zero :
    nextIs (step (at5With 0x20C22000#32 0xFFFFFFF9#32 2#32)) (wrote 3 0xFFFFFFFD#32) = true := by decide
theorem test_div_overflow_faults :
    nextIs (step (at5With 0x20C22000#32 0x80000000#32 0xFFFFFFFF#32))
      (faulted 2#3 0x20C22000#32 0xFFFFFFFF#32) = true := by decide
theorem test_mod_sign_of_dividend :
    nextIs (step (at5With 0x28C22000#32 0xFFFFFFF9#32 2#32)) (wrote 3 0xFFFFFFFF#32) = true := by decide
theorem test_mod_by_zero_faults :
    nextIs (step (at5With 0x28C22000#32 7#32 0#32)) (faulted 2#3 0x28C22000#32 0#32) = true := by decide
/-- Part 2.4. -/
theorem test_and :
    nextIs (step (at5With 0x30C22000#32 0xF0F0F0F0#32 0x0FF00FF0#32)) (wrote 3 0x00F000F0#32) = true := by decide
theorem test_or :
    nextIs (step (at5With 0x38C22000#32 0xF0F0F0F0#32 0x0FF00FF0#32)) (wrote 3 0xFFF0FFF0#32) = true := by decide
theorem test_not_logical :
    nextIs (step (at5With 0x40440000#32 9#32 5#32)) (wrote 1 0#32) = true ∧
    nextIs (step (at5With 0x40440000#32 9#32 0#32)) (wrote 1 1#32) = true := by decide
theorem test_const_zero_extends : nextIs (step (at5 0x49FFFFFF#32)) (wrote 7 0x003FFFFF#32) = true := by decide
theorem test_sll_drops_high_bits :
    nextIs (step (at5With 0x50450000#32 0#32 0x00012345#32)) (wrote 1 0x23450000#32) = true := by decide
/-- S8: the amount is the field, whatever R3 holds. -/
theorem test_sll_amount_is_field :
    nextIs (step ((at5With 0x50443000#32 0#32 1#32).writeReg 3 9#32)) (wrote 1 8#32) = true := by decide
/-- Part 2.5. -/
theorem test_load_last_cell :
    nextIs (step ((at5With 0x58820000#32 0xFFFF#32 0#32).memWrite 0xFFFF#32 7#32)) (wrote 2 7#32) = true := by decide
theorem test_load_not_masked :
    nextIs (step (at5With 0x58820000#32 0x00010064#32 0#32)) (faulted 3#3 0x58820000#32 0x00010064#32) = true := by decide
theorem test_store_whole_word :
    nextIs (step (at5With 0x60820000#32 100#32 0xDEADBEEF#32))
      (fun t => t.mem.read 100 == 0xDEADBEEF#32 && wrote 2 0xDEADBEEF#32 t) = true := by decide
theorem test_store_negative_address_faults :
    nextIs (step (at5With 0x60820000#32 0xFFFFFFFF#32 1#32)) (faulted 3#3 0x60820000#32 0xFFFFFFFF#32) = true := by decide
/-- Part 2.6. -/
theorem test_goto_last_cell :
    nextIs (step (at5With 0x68800000#32 0#32 0xFFFF#32)) (fun t => t.pc == 0xFFFF#32) = true := by decide
theorem test_goto_minus_one_faults :
    nextIs (step (at5With 0x68800000#32 0#32 0xFFFFFFFF#32)) (faulted 3#3 0x68800000#32 0xFFFFFFFF#32) = true := by decide
theorem test_ifeq_taken :
    nextIs (step ((at5With 0x71022000#32 7#32 7#32).writeReg 4 100#32)) (fun t => t.pc == 100#32) = true := by decide
theorem test_ifeq_bad_target_not_taken :
    nextIs (step ((at5With 0x71022000#32 1#32 2#32).writeReg 4 0x00010000#32)) (wrote 4 0x00010000#32) = true := by decide
theorem test_iflt_signed :
    nextIs (step ((at5With 0x79022000#32 0x80000000#32 0x7FFFFFFF#32).writeReg 4 100#32))
      (fun t => t.pc == 100#32) = true := by decide
theorem test_iflt_equal_not_taken :
    nextIs (step ((at5With 0x79022000#32 7#32 7#32).writeReg 4 100#32)) (fun t => t.pc == 6#32) = true := by decide
theorem test_halt :
    nextIs (step (at5 0x87FFFFFF#32)) (fun t => t.pc == 0xFFFFFFFF#32 && t.fcause == 0#3) = true := by decide
/-- Part 2.7. -/
theorem test_in_takes_head :
    nextIs (step { at5 0x88400000#32 with inq := [0x141#32, 9#32] }) (fun t => wrote 1 0x141#32 t && t.inq == [9#32]) = true := by
  decide
theorem test_in_closed_and_not_ready :
    nextIs (step (at5 0x88400000#32).closeInput) (faulted 4#3 0x88400000#32 0#32) = true ∧
    step (at5 0x88400000#32) = .fault .inputNotReady := ⟨by decide, rfl⟩
theorem test_out_low_byte :
    nextIs (step { at5With 0x90400000#32 0x141#32 0#32 with outLog := [0x48#8] })
      (fun t => t.outLog == [0x48#8, 0x41#8] && t.pc == 6#32) = true := by decide

/-! ### Fetch, dispatch, halting, reset (parts 2.2, 2.8, 2.9) -/

theorem test_unknown_opcode_faults :
    nextIs (step (at5 0x98000000#32)) (faulted 1#3 0x98000000#32 0x13#32) = true ∧
    nextIs (step (at5 0#32)) (faulted 1#3 0#32 0#32) = true := by decide
/-- `const R9 9` in the last cell, then the fetch past it. -/
theorem test_last_cell_then_fetch_fault :
    nextIs (step ({ State.reset with pc := 0xFFFF#32 }.placeAtPc 0x4A400009#32))
      (fun t => t.pc == 0x00010000#32 && nextIs (step t) (fun u => u.fcause == 3#3 && u.fpc == 0x00010000#32 &&
        u.finstr == 0#32 && u.finfo == 0x00010000#32 && u.pc == 0xFFFFFFFF#32)) = true := by decide
theorem test_halted_has_no_step : step { State.reset with pc := 0xFFFFFFFF#32 } = .fault .halted := rfl
/-- A store over its own cell: this step is unaffected, and the cell holds the new word (part 2.5). -/
theorem test_store_over_itself :
    nextIs (step (at5With 0x60820000#32 5#32 0x80000000#32))
      (fun t => t.mem.read 5 == 0x80000000#32 && t.pc == 6#32) = true := by decide
theorem test_reset_after_fault :
    nextIs (step (at5 0xFFFFFFFF#32)) (fun t =>
      let u := t.resetEvent (fun i => BitVec.ofNat 32 (i + 1))
      u.pc == 0#32 && u.fcause == 0#3 && u.finstr == 0#32 && u.readReg 31 == 32#32 && u.mem.read 5 == 0xFFFFFFFF#32) = true := by
  decide
/-- The first step after reset runs the word that `withFetchWord` places. -/
theorem test_fetch_word_runs :
    nextIs (step (State.reset.withFetchWord 32 0x48400005)) (fun t => t.readReg 1 == 5#32 && t.pc == 1#32) = true := by decide

/-! ### The assembler (part 2.1, the acceptance table) -/

theorem test_assemble_add_program :
    assembleText "const R1 5\n\nconst R2, 3 // three\n  add R3 R1 R2\nhalt".toList =
      .ok [0x48400005#32, 0x48800003#32, 0x08C22000#32, 0x80000000#32] := by decide
theorem test_assemble_comment_only : assembleText "// only a comment\n".toList = .ok [] := by decide
theorem test_assemble_const_range :
    assembleText "const R1 4194304".toList = .error .outOfRange ∧
    assembleText "const R1 -1".toList = .error .malformedLiteral := by decide
theorem test_assemble_register_range : assembleText "halt\nadd R32 R1 R2".toList = .error .outOfRange := by decide
theorem test_assemble_sll_amount :
    assembleText "sll R1 R2 32".toList = .error .outOfRange ∧
    assembleText "sll R1 R2 R3".toList = .error .wrongOperandKind := by decide
theorem test_assemble_case :
    assembleText "ADD R3 R1 R2".toList = .error .unknownMnemonic ∧
    assembleText "add r3 R1 R2".toList = .error .malformedLiteral := by decide
theorem test_assemble_count_and_nop :
    assembleText "add R3 R1".toList = .error .wrongOperandCount ∧
    assembleText "nop".toList = .error .unknownMnemonic := by decide

/-- Points that R65 and R66 leave open, as log 13 settles them: empty fields, a line of commas, a form feed. -/
theorem test_assemble_log13 :
    assembleText ",add R3,,R1 R2,\n,, ,\n".toList = .ok [0x08C22000#32] ∧
    assembleText "\x0c".toList = .error .unknownMnemonic := by decide

/-- Which of several errors is named, as log 13 settles it: malformed token, mnemonic, count, then the leftmost operand; and
the first failing line. -/
theorem test_assemble_error_order :
    assembleText "nop Rx".toList = .error .malformedRegister ∧
    assembleText "add R3 -1 Rx".toList = .error .malformedLiteral ∧
    assembleText "nop R32 5".toList = .error .unknownMnemonic ∧
    assembleText "add R32 5".toList = .error .wrongOperandCount ∧
    assembleText "add R1 5 R32".toList = .error .wrongOperandKind ∧
    assembleText "add R32 5 R1".toList = .error .outOfRange ∧
    assembleText "nop\nadd Rx".toList = .error .unknownMnemonic := by decide

/-- S3 and the syntax rows of R67. -/
theorem test_disassemble_text :
    disassembleText 0x08C22FFF#32 = some "add R3 R1 R2".toList ∧
    disassembleText 0x49FFFFFF#32 = some "const R7 4194303".toList ∧
    disassembleText 0x5043B000#32 = some "sll R1 R1 27".toList ∧
    disassembleText 0x87FFFFFF#32 = some "halt".toList ∧ disassembleText 0x98000000#32 = none := by decide

/-! ### Witnesses: states and operands that meet the hypotheses of the statements, clause by clause, at the ends of ranges -/

/-- The pc at p; everything else as after reset. -/
def pcAt (p : Word) : State := { State.reset with pc := p }

/-- RefusedWordsAreTheUnassignedOnes: the last and first words of each side. -/
theorem test_witness_refused_words :
    unsigned 0x07FFFFFF#32 < 0x08000000 ∧ 0x98000000 ≤ unsigned 0x98000000#32 ∧
    ¬ (unsigned 0x08000000#32 < 0x08000000 ∨ 0x98000000 ≤ unsigned 0x08000000#32) ∧
    ¬ (unsigned 0x97FFFFFF#32 < 0x08000000 ∨ 0x98000000 ≤ unsigned 0x97FFFFFF#32) := by decide

/-- EncoderAcceptsExactlyTheRange: the largest call in range of each shape and the first out of it. -/
theorem test_witness_encoder_range :
    (31 ≤ 31 ∧ 4194303 ≤ 4194303) ∧ (EncoderCall.const 31 31 4194303).encode = some 0xFFFFFFFF#32 ∧
    (EncoderCall.const 31 31 4194304).encode = none := by decide

/-- IgnoredBitsSelectNothing: two different words that agree above the ignored bits, with 12, 27 and 22 of them. -/
theorem test_witness_ignored_bits :
    unsigned 0x08C22000#32 / 2 ^ ignoredBits (opcodeNumber 0x08C22000#32) =
      unsigned 0x08C22FFF#32 / 2 ^ ignoredBits (opcodeNumber 0x08C22000#32) ∧
    unsigned 0x80000000#32 / 2 ^ ignoredBits (opcodeNumber 0x80000000#32) =
      unsigned 0x87FFFFFF#32 / 2 ^ ignoredBits (opcodeNumber 0x80000000#32) ∧
    unsigned 0x6B000000#32 / 2 ^ ignoredBits (opcodeNumber 0x6B000000#32) =
      unsigned 0x6B3FFFFF#32 / 2 ^ ignoredBits (opcodeNumber 0x6B000000#32) := by decide

/-- DisassemblyAssemblesBack: a word with a text form, and one without. -/
theorem test_witness_disassembly :
    disassemble 0x08C22FFF#32 = some ⟨"add", [.reg 3, .reg 1, .reg 2]⟩ ∧ disassemble 0x98000000#32 = none := by decide

/-- DisassembledTextAssemblesBack, ImageHasTextUnlessAWordIsUnassigned: the empty image, two words with ignored bits set, and
an image with an unassigned opcode. -/
theorem test_witness_disassemble_program :
    disassembleProgram [] = some [] ∧ disassembleProgram [0x80000000#32, 0x98000000#32] = none ∧
    disassembleProgram [0x97FFFFFF#32, 0x80000001#32] = some "out R31\nhalt\n".toList := by decide

/-- StepRunsDecodedInstruction, at the first and at the last cell. -/
theorem test_witness_step_runs :
    AtInstr ((pcAt 0#32).placeAtPc 0x08C22FFF#32) (.add 3 1 2) ∧
    AtInstr ((pcAt 0xFFFF#32).placeAtPc 0x87FFFFFF#32) .halt := by decide

/-- HaltedEngineHasNoStep: both sides of the equivalence. -/
theorem test_witness_halted : Halted (pcAt 0xFFFFFFFF#32) ∧ ¬ Halted (pcAt 0#32) := by decide

/-- FetchPastLastCellFaults: past the last cell, the two ends of memory, and the step that gets past it. -/
theorem test_witness_fetch :
    65535 < signed (pcAt 0x00010000#32).pc ∧ InRange (pcAt 0#32).pc ∧ InRange (pcAt 0xFFFF#32).pc ∧
    nextIs (step ((pcAt 0xFFFF#32).placeAtPc 0x4A400009#32)) (fun t => decide (65535 < signed t.pc)) = true := by decide

/-- UnassignedOpcodeFaults: opcodes 0, 19 and 31. -/
theorem test_witness_unassigned :
    InRange (at5 0x07FFFFFF#32).pc ∧ UnassignedOpcode (opcodeNumber (wordAtPc (at5 0x07FFFFFF#32))) ∧
    UnassignedOpcode (opcodeNumber (wordAtPc (at5 0x98000000#32))) ∧
    UnassignedOpcode (opcodeNumber (wordAtPc (at5 0xFFFFFFFF#32))) := by decide

/-- OnlyInWithoutInputHolds: a held state, and Running states that are not held. -/
theorem test_witness_hold :
    Held (at5 0x88400000#32) ∧ (Running (at5 0#32) ∧ ¬ Held (at5 0#32)) ∧
    AtInstr (at5 0x8FC00000#32) (.inp 31) ∧ (at5 0x8FC00000#32).inq = [] ∧ (at5 0x8FC00000#32).inclosed = false :=
  ⟨⟨⟨1, by decide⟩, rfl, rfl⟩, ⟨by decide, fun h => by
    obtain ⟨⟨x, -, hx⟩, -⟩ := h
    exact absurd (hx : Except.error (DecodeError.unknownOpcode 0#5) = Except.ok (Instr.inp x)) nofun⟩,
    by decide, rfl, rfl⟩

/-- DivWritesTruncatedQuotient, ModWritesRemainder: −2^31 by 1 and 2^31 − 1 by −1 divide, x by 0 and −2^31 by −1 do not. -/
theorem test_witness_division :
    (signed ((at5With 0#32 0x80000000#32 1#32).readReg 2) ≠ 0 ∧
      ¬ (signed ((at5With 0#32 0x80000000#32 1#32).readReg 1) = -2147483648 ∧
        signed ((at5With 0#32 0x80000000#32 1#32).readReg 2) = -1)) ∧
    (signed ((at5With 0#32 0x7FFFFFFF#32 0xFFFFFFFF#32).readReg 2) ≠ 0 ∧
      ¬ signed ((at5With 0#32 0x7FFFFFFF#32 0xFFFFFFFF#32).readReg 1) = -2147483648) ∧
    signed ((at5With 0#32 0x80000000#32 0#32).readReg 2) = 0 ∧
    (signed ((at5With 0#32 0x80000000#32 0xFFFFFFFF#32).readReg 1) = -2147483648 ∧
      signed ((at5With 0#32 0x80000000#32 0xFFFFFFFF#32).readReg 2) = -1) := by decide

/-- QuotientAndRemainderLaw: −7 by 2. -/
theorem test_witness_quotient_law :
    signed ((at5With 0#32 0xFFFFFFF9#32 2#32).readReg 2) ≠ 0 ∧
    ¬ (signed ((at5With 0#32 0xFFFFFFF9#32 2#32).readReg 1) = -2147483648 ∧
      signed ((at5With 0#32 0xFFFFFFF9#32 2#32).readReg 2) = -1) ∧
    nextIs (exec (.div 3 1 2) (at5With 0#32 0xFFFFFFF9#32 2#32)) (fun t => t.readReg 3 == 0xFFFFFFFD#32) = true ∧
    nextIs (exec (.mod 4 1 2) (at5With 0#32 0xFFFFFFF9#32 2#32)) (fun t => t.readReg 4 == 0xFFFFFFFF#32) = true := by
  decide

/-- LoadReadsAddressedCell, StoreWritesAddressedCell, GotoSetsPc: the ends of the range and the first Words outside it. -/
theorem test_witness_addresses :
    InRange ((at5With 0#32 0#32 0#32).readReg 1) ∧ InRange ((at5With 0#32 0xFFFF#32 0#32).readReg 1) ∧
    ¬ InRange ((at5With 0#32 0x00010000#32 0#32).readReg 1) ∧
    ¬ InRange ((at5With 0#32 0xFFFFFFFF#32 0#32).readReg 1) := by decide

/-- LaterFetchesSeeTheStore: a store to the last cell, and the two ends as the place of the next fetch. -/
theorem test_witness_store_then_fetch :
    AtInstr (at5With 0x60820000#32 0xFFFF#32 9#32) (.store 2 1) ∧
    InRange ((at5With 0x60820000#32 0xFFFF#32 9#32).readReg 1) ∧ InRange 0#32 ∧ InRange 0xFFFF#32 := by decide

/-- EveryLaterFetchSeesTheStore: a store to the cell of the next instruction, then an arrival and one more step, the
stored `const R9 9`; and no move at all, for the last cell. -/
theorem test_witness_store_then_run :
    AtInstr (at5With 0x60820000#32 6#32 0x4A400009#32) (.store 2 1) ∧
    InRange ((at5With 0x60820000#32 6#32 0x4A400009#32).readReg 1) ∧
    ∃ t, step (at5With 0x60820000#32 6#32 0x4A400009#32) = .next t ∧
      (∃ u, t.moves [.supply 7#32, .step] = some u ∧ u.readReg 9 = 9#32) ∧
      NoStoreTo 6#32 [.supply 7#32, .step] t ∧ NoStoreTo 0xFFFF#32 [] t := by
  refine ⟨by decide, by decide, _, rfl, ⟨_, rfl, by decide⟩, fun before after v e hv x y hi => ?_,
    fun before after v e => by simp at e⟩
  rcases before with _ | ⟨m, _ | ⟨m', rest⟩⟩
  · cases e
  · cases e
    cases hv
    exact absurd (hi.2 : Except.ok (Instr.const 9 9) = Except.ok (Instr.store x y)) nofun
  · simp at e

/-- IfeqBranchesOnEqual: taken with a target in range, taken with one outside, not taken. -/
theorem test_witness_ifeq :
    (((at5With 0#32 7#32 7#32).readReg 1 = (at5With 0#32 7#32 7#32).readReg 2) ∧
      InRange ((at5With 0#32 7#32 7#32).readReg 4)) ∧
    ¬ InRange (((at5With 0#32 7#32 7#32).writeReg 4 0x00010000#32).readReg 4) ∧
    (at5With 0#32 0xFFFFFFFF#32 0#32).readReg 1 ≠ (at5With 0#32 0xFFFFFFFF#32 0#32).readReg 2 := by decide

/-- IfltBranchesOnSignedLess: the two ends of the signed range, taken with the target 65535 or −1, and not taken. -/
theorem test_witness_iflt :
    signed ((at5With 0#32 0x80000000#32 0x7FFFFFFF#32).readReg 1) <
      signed ((at5With 0#32 0x80000000#32 0x7FFFFFFF#32).readReg 2) ∧
    InRange (((at5With 0#32 0x80000000#32 0x7FFFFFFF#32).writeReg 4 0xFFFF#32).readReg 4) ∧
    ¬ InRange (((at5With 0#32 0x80000000#32 0x7FFFFFFF#32).writeReg 4 0xFFFFFFFF#32).readReg 4) ∧
    ¬ signed ((at5With 0#32 0x7FFFFFFF#32 0x7FFFFFFF#32).readReg 1) <
      signed ((at5With 0#32 0x7FFFFFFF#32 0x7FFFFFFF#32).readReg 2) := by decide

/-- PcHasThreeUpdates, StepWritesAtMostOneRegister, StreamsMoveInOrder: a step that answers a next state. -/
theorem test_witness_step : ∃ t, step (at5With 0x08C22000#32 1#32 2#32) = .next t ∧ t.pc = 6#32 := ⟨_, rfl, by decide⟩

/-- InputPortAnswers, InReceivesNextWord: the three situations of the port. -/
theorem test_witness_input :
    { at5 0x88400000#32 with inq := [7#32] }.inq = 7#32 :: [] ∧
    ((at5 0x88400000#32).closeInput.inq = [] ∧ (at5 0x88400000#32).closeInput.inclosed = true) ∧
    ((at5 0x88400000#32).inq = [] ∧ (at5 0x88400000#32).inclosed = false) ∧
    (∃ t, step (at5 0x08C22000#32).closeInput = .next t ∧ t.inclosed = true) :=
  ⟨rfl, ⟨rfl, rfl⟩, ⟨rfl, rfl⟩, ⟨_, rfl, rfl⟩⟩

/-- RecordedFaultsArePrecise, RunEndsNormallyOnlyByHalt: no fault before the step, one after it; and a `halt`. -/
theorem test_witness_precise :
    (at5 0xFFFFFFFF#32).fcause = 0#3 ∧ nextIs (step (at5 0xFFFFFFFF#32)) (fun t => decide (t.fcause ≠ 0#3)) = true ∧
    AtInstr (at5 0x80000000#32) .halt := by decide

/-- OnlyStoreChangesMemory: a step after which a cell reads differently. -/
theorem test_witness_memory_changes :
    ∃ t, step (at5With 0x60820000#32 0xFFFF#32 9#32) = .next t ∧
      t.mem.read 0xFFFF ≠ (at5With 0x60820000#32 0xFFFF#32 9#32).mem.read 0xFFFF := ⟨_, rfl, by decide⟩

/-- CellKeepsContentUntilStored: a run of one step that stores nothing, seen at the last cell. -/
theorem test_witness_no_store :
    (∃ t, Host.Core.run Sys2Proof.core 1 (at5With 0x08C22000#32 1#32 2#32) = .next t) ∧
    ∀ (k : Nat) (u : State), k < 1 → Host.Core.run Sys2Proof.core k (at5With 0x08C22000#32 1#32 2#32) = .next u →
      ∀ x y, AtInstr u (.store x y) → InRange (u.readReg y) → (signed (u.readReg y)).toNat ≠ 65535 := by
  refine ⟨⟨_, rfl⟩, fun k u hk hu x y hi => ?_⟩
  obtain rfl : k = 0 := by omega
  cases hu
  exact absurd (hi.2 : Except.ok (Instr.add 3 1 2) = Except.ok (Instr.store x y)) nofun

/-- The state of part 2.2 after the unknown opcode 19 at pc 5. -/
def faultedAt5 : State := (at5 0x98000000#32).raise .unknownOpcode 0x13#32

/-- RecordedFaultIsFinal, and StepKeepsInv and OutsideMovesKeepInv for a state that holds a fault record. -/
theorem test_witness_fault_record : Inv faultedAt5 ∧ faultedAt5.fcause ≠ 0#3 :=
  ⟨⟨by decide, .inl (by decide), .inr (.inl (by decide)), fun _ => by decide⟩, by decide⟩

/-- StepKeepsInv: a state with the invariant, at the last cell, and its step. -/
theorem test_witness_inv_step :
    Inv ((pcAt 0xFFFF#32).placeAtPc 0x4A400009#32) ∧
    ∃ t, step ((pcAt 0xFFFF#32).placeAtPc 0x4A400009#32) = .next t ∧ t.pc = 0x00010000#32 :=
  ⟨⟨by decide, .inr (by decide), .inl (by decide), fun h => absurd rfl h⟩, _, rfl, by decide⟩

/-- OutsideMovesKeepInv: a program that loads after a reset. -/
theorem test_witness_outside_moves :
    Inv (at5 0x80000000#32) ∧ ∃ t, ((at5 0x80000000#32).resetEvent (fun _ => 7#32)).loadProgram [0x80000000#32] = some t :=
  ⟨⟨by decide, .inr (by decide), .inl (by decide), fun h => absurd rfl h⟩, _, rfl⟩

/-- UnreadRegisterHasNoInfluence: `sll R1 R2 3` does not read R3. -/
theorem test_witness_unread :
    3 ∉ regsRead (.sll 1 2 3) ∧ ∃ t, exec (.sll 1 2 3) (at5With 0#32 0#32 1#32) = .next t ∧ t.readReg 1 = 8#32 :=
  ⟨by decide, _, rfl, by decide⟩

/-- EveryStartSatisfiesInv, StartStateIsTheSpecs: a start with a one-word program, some REG_RESET and MEM_INIT and input. -/
theorem test_witness_start :
    [0x80000000#32].length ≤ 65536 ∧ 0 < [0x80000000#32].length ∧ [0x80000000#32].length ≤ 65535 ∧
    ∃ s, State.start (fun i => BitVec.ofNat 32 i) (fun _ => 9#32) [0x80000000#32] [1#32] true = some s :=
  ⟨by decide, by decide, by decide, by
    unfold State.start State.loadProgram
    exact ⟨_, if_pos (show [0x80000000#32].length ≤ Config.memWords by decide)⟩⟩

/-- StartStateIsTheSpecs, LoadingWritesTheImage: the longest program that fits, and the shortest that does not. -/
theorem test_witness_program_lengths :
    (List.replicate 65536 0#32).length ≤ 65536 ∧ 65536 < (List.replicate 65537 0#32).length :=
  ⟨le_of_eq List.length_replicate, lt_of_lt_of_eq (by decide) List.length_replicate.symm⟩

end Sys2Proof.Tests
end

section
/-! The rules that hold of every step: what it can do to registers, memory, streams, pc and fault record (spec/10_state.md). -/

namespace Sys2Proof.Machine

/-! ### What a step can do, in two cases -/

/-- Every way to take a fault is fault entry, so a step either enters a fault or completes the instruction at the pc
(R80, R156). -/
theorem step_faults_or_completes {s t : State} (h : step s = .next t) :
    (∃ c iw info, t = s.faultEntry c iw info) ∨ ∃ i, AtInstr s i ∧ Completes s i t := by
  obtain ⟨-, ⟨-, ht⟩ | ⟨op, -, -, ht⟩ | ⟨i, hat, hexec⟩⟩ := step_cases h
  · exact .inl ⟨_, _, _, ht⟩
  · exact .inl ⟨_, _, _, ht⟩
  · obtain hdone | ⟨c, info, -, ht⟩ := exec_cases hexec
    · exact .inr ⟨i, hat, hdone⟩
    · exact .inl ⟨c, _, info, ht⟩

/-! ### What a completing instruction does to each part of the state -/

section Completes
variable {s t : State} {i : Instr}

theorem Completes.sameFaultStatus (h : Completes s i t) : SameFaultStatus s t := by
  cases h <;> exact ⟨rfl, rfl, rfl, rfl⟩

theorem Completes.inclosed_eq (h : Completes s i t) : t.inclosed = s.inclosed := by
  cases h <;> rfl

/-- The next pc: one further, a legal target, or that of the Halted engine (R85, R134, R133). -/
theorem Completes.pc_cases (h : Completes s i t) : Advanced s t ∨ InRange t.pc ∨ t.pc = minusOne := by
  cases h with
  | goto _ hx | ifeq _ _ _ hx | iflt _ _ _ hx => exact .inr (.inl hx)
  | halt => exact .inr (.inr rfl)
  | reg | input | store | output | ifeqNot | ifltNot => exact .inl rfl

/-- Only the instruction's own destination is written (R13). -/
theorem Completes.regs_cases (h : Completes s i t) :
    SameRegs s t ∨ ∃ x, regWritten i = some x ∧ ∀ r, r ≠ x → t.readReg r = s.readReg r := by
  cases h with
  | reg _ x v hw => exact .inr ⟨x, hw, fun r hr => State.writeReg_readReg_other s x r v hr⟩
  | input x w rest => exact .inr ⟨x, rfl, fun r hr => State.writeReg_readReg_other _ x r w hr⟩
  | store | output | goto | ifeq | iflt | ifeqNot | ifltNot | halt => exact .inl fun _ => rfl

/-- Only `store` touches memory, and it is one write (R20, R36). -/
theorem Completes.mem_cases (h : Completes s i t) :
    t.mem = s.mem ∨ ∃ x y, i = .store x y ∧ InRange (s.readReg y) ∧
      t.mem = s.mem.write (cellOf (s.readReg y)) (s.readReg x) := by
  cases h with
  | store x y hy => exact .inr ⟨x, y, rfl, hy, rfl⟩
  | reg | input | output | goto | ifeq | iflt | ifeqNot | ifltNot | halt => exact .inl rfl

/-- Only `out` touches the output stream (R22). -/
theorem Completes.outLog_cases (h : Completes s i t) :
    t.outLog = s.outLog ∨ ∃ x b, i = .out x ∧ t.outLog = s.outLog ++ [b] := by
  cases h with
  | output x => exact .inr ⟨x, _, rfl, rfl⟩
  | reg | input | store | goto | ifeq | iflt | ifeqNot | ifltNot | halt => exact .inl rfl

/-- Only `in` touches the input stream: it moves the head into its destination (R21, R140). -/
theorem Completes.inq_cases (h : Completes s i t) :
    t.inq = s.inq ∨ ∃ x w, i = .inp x ∧ s.inq = w :: t.inq ∧ t.readReg x = w := by
  cases h with
  | input x w rest hq => exact .inr ⟨x, w, rfl, hq, State.writeReg_readReg_self _ x w⟩
  | reg | store | output | goto | ifeq | iflt | ifeqNot | ifltNot | halt => exact .inl rfl

/-- A completing instruction keeps the canonical form of memory. -/
theorem Completes.mem_wf (h : Completes s i t) (hm : s.mem.wf = true) : t.mem.wf = true := by
  obtain e | ⟨x, y, -, hy, e⟩ := h.mem_cases <;> rw [e]
  · exact hm
  · exact Memory.wf_write s.mem _ _ (cellOf_lt hy) hm

end Completes

/-! ### The invariant -/

/-- The pc of a Running engine is not −1 (R14). -/
theorem pc_ne_minusOne_of_running {s : State} (h : Running s) : s.pc ≠ 0xFFFFFFFF#32 := by
  intro e
  rw [Running, e] at h
  exact absurd h (by decide)

/-- The divisors on which the divider faults are the two of R151's row. -/
theorem divFaults_divisor {a b : Word} (h : divFaults a b = true) : b = 0#32 ∨ b = 0xFFFFFFFF#32 := by
  obtain h0 | ⟨-, h1⟩ := (divFaults_iff a b).mp h
  · exact .inl (BitVec.eq_of_toInt_eq h0)
  · exact .inr (BitVec.eq_of_toInt_eq h1)

/-- A fault raised inside an instruction records the cell it was fetched from. -/
theorem raise_recordAtCell {s : State} (c : FaultCause) (info : Word) (h : InRange s.pc) :
    RecordAtCell (s.raise c info) := ⟨h, rfl⟩

/-- An instruction's own fault is recorded on its row of R151's table. -/
theorem raise_legal {s : State} {i : Instr} {c : FaultCause} {info : Word} (hat : AtInstr s i)
    (h : RaisesFault s i c info) : LegalFaultRecord (s.raise c info) := by
  obtain ⟨hpc, hdec⟩ := hat
  have hcell := raise_recordAtCell c info hpc
  have hop : opcodeNumber (s.raise c info).finstr = opcodeOf i := decode_opcode hdec
  cases h with
  | div x y z hd => exact .inr (.inr (.inl ⟨rfl, hcell, .inl hop, divFaults_divisor hd⟩))
  | mod x y z hd => exact .inr (.inr (.inl ⟨rfl, hcell, .inr hop, divFaults_divisor hd⟩))
  | load _ _ hr | store _ _ hr | goto _ hr | ifeq _ _ _ hr | iflt _ _ _ hr =>
    simp only [opcodeOf] at hop
    exact .inr (.inr (.inr (.inr (.inl ⟨rfl, hcell, by omega, by omega, hr⟩))))
  | inp => exact .inr (.inr (.inr (.inr (.inr ⟨rfl, hcell, hop, rfl⟩))))

/-- An unknown opcode is recorded on its row of R151's table. -/
theorem unknownOpcodeFault_legal {s : State} {op : BitVec 5} (hpc : InRange s.pc)
    (hdec : decode (wordAtPc s) = .error (.unknownOpcode op)) : LegalFaultRecord (unknownOpcodeFault s op) := by
  obtain ⟨hop, hun⟩ := decode_error_cases hdec
  cases hop
  refine .inr (.inl ⟨rfl, raise_recordAtCell _ _ hpc, hun, ?_⟩)
  show (((fields (wordAtPc s)).op.zeroExtend 32).toNat = _)
  rw [BitVec.toNat_setWidth_of_le (by decide), fields_op_toNat]
  rfl

/-- A fetch fault is recorded on its row of R151's table: the pc has run one past the last cell (R15, R82). -/
theorem fetchFault_legal {s : State} (hi : Inv s) (hrun : Running s) (hpc : ¬ InRange s.pc) :
    LegalFaultRecord (fetchFault s) := by
  have hend : s.pc = 0x00010000#32 := by
    obtain hm | ⟨h0, h1⟩ := hi.pc
    · exact absurd hm (pc_ne_minusOne_of_running hrun)
    · have hval : signed s.pc = 65536 := by
        simp only [InRange, not_and] at hpc
        have := hpc h0
        omega
      exact BitVec.eq_of_toInt_eq hval
  exact .inr (.inr (.inr (.inl ⟨rfl, hend, rfl, hend⟩)))

/-- Fault entry keeps the invariant when the record it makes is a legal one. -/
theorem Inv.faultEntry {s : State} (hi : Inv s) {c : FaultCause} {iw info : Word}
    (hl : LegalFaultRecord (s.faultEntry c iw info)) : Inv (s.faultEntry c iw info) :=
  ⟨hi.memory, .inl rfl, hl, fun _ => rfl⟩

/-- Where no fault is recorded, all four fault-status registers are 0 (R17, R151). -/
theorem LegalFaultRecord.zero_of_fcause {s : State} (h : LegalFaultRecord s) (h0 : s.fcause = 0#3) :
    s.fpc = 0#32 ∧ s.finstr = 0#32 ∧ s.finfo = 0#32 := by
  obtain ⟨-, hz⟩ | ⟨hc, -⟩ | ⟨hc, -⟩ | ⟨hc, -⟩ | ⟨hc, -⟩ | ⟨hc, -⟩ := h
  · exact hz
  all_goals exact absurd (h0.symm.trans hc) (by decide)

/-- The invariant of a state without a fault record. -/
theorem Inv.of_no_record {s : State} (hm : s.mem.wf = true)
    (hpc : s.pc = 0xFFFFFFFF#32 ∨ (0 ≤ signed s.pc ∧ signed s.pc ≤ 65536)) (hc : s.fcause = 0#3) (hp : s.fpc = 0#32)
    (hw : s.finstr = 0#32) (hf : s.finfo = 0#32) : Inv s :=
  ⟨hm, hpc, .inl ⟨hc, hp, hw, hf⟩, fun h => absurd hc h⟩

/-- A Running engine with the invariant has no fault recorded (R18, R156). -/
theorem Inv.fcause_of_running {s : State} (hi : Inv s) (hrun : Running s) : s.fcause = 0#3 := by
  by_contra h
  exact pc_ne_minusOne_of_running hrun (hi.halts h)

/-- Advancing from a cell goes at most one past the last (R15, R85). -/
theorem signed_advance {v : Word} (h : InRange v) : signed (word (signed v + 1)) = signed v + 1 := by
  obtain ⟨h0, h1⟩ := h
  rw [signed, word, BitVec.toInt_ofInt]
  exact Int.bmod_eq_of_le (by omega) (by omega)

/-- A completing instruction leaves the pc at −1 or in 0 to 65536 (R15). -/
theorem Completes.pc_legal {s t : State} {i : Instr} (h : Completes s i t) (hpc : InRange s.pc) :
    t.pc = 0xFFFFFFFF#32 ∨ (0 ≤ signed t.pc ∧ signed t.pc ≤ 65536) := by
  obtain ⟨h0, h1⟩ := hpc
  obtain hadv | ⟨ht0, ht1⟩ | hhalt := h.pc_cases
  · rw [hadv, signed_advance ⟨h0, h1⟩]
    exact .inr ⟨by omega, by omega⟩
  · exact .inr ⟨ht0, by omega⟩
  · exact .inl hhalt

/-- A completing instruction keeps the invariant: nothing was recorded, and it records nothing. -/
theorem Completes.inv {s t : State} {i : Instr} (h : Completes s i t) (hi : Inv s) (hpc : InRange s.pc) : Inv t := by
  have hc := hi.fcause_of_running hpc.1
  obtain ⟨hp, hw, hf⟩ := hi.record.zero_of_fcause hc
  obtain ⟨ec, ep, ew, ef⟩ := h.sameFaultStatus
  exact .of_no_record (h.mem_wf hi.memory) (h.pc_legal hpc) (ec.trans hc) (ep.trans hp) (ew.trans hw) (ef.trans hf)

/-- Settles O45: each of the faults makes a legal record, and a completing instruction records nothing. -/
theorem stepKeepsInv : Obligations.StepKeepsInv := by
  intro s t hi h
  obtain ⟨hrun, ⟨hpc, rfl⟩ | ⟨op, hpc, hdec, rfl⟩ | ⟨i, hat, hexec⟩⟩ := step_cases h
  · exact hi.faultEntry (fetchFault_legal hi hrun hpc)
  · exact hi.faultEntry (unknownOpcodeFault_legal hpc hdec)
  · obtain hdone | ⟨c, info, hraise, rfl⟩ := exec_cases hexec
    · exact hdone.inv hi hat.1
    · exact hi.faultEntry (raise_legal hat hraise)

/-! ### The frame of every step -/

/-- Settles O36: fault entry leaves the streams alone, and of the instructions only `in` and `out` touch them. -/
theorem streamsMoveInOrder : Obligations.StreamsMoveInOrder := by
  intro s t h
  obtain ⟨c, iw, info, rfl⟩ | ⟨i, hat, hdone⟩ := step_faults_or_completes h
  · exact ⟨.inl rfl, .inl rfl, rfl⟩
  · refine ⟨?_, ?_, hdone.inclosed_eq⟩
    · obtain e | ⟨x, b, rfl, e⟩ := hdone.outLog_cases
      · exact .inl e
      · exact .inr ⟨x, b, hat, e⟩
    · obtain e | ⟨x, w, rfl, hq, hx⟩ := hdone.inq_cases
      · exact .inl e
      · exact .inr ⟨x, w, hat, hq, hx⟩

/-- Settles O38: fault entry writes no register, a completing instruction at most its destination. -/
theorem stepWritesAtMostOneRegister : Obligations.StepWritesAtMostOneRegister := by
  intro s t h
  obtain ⟨c, iw, info, rfl⟩ | ⟨i, hat, hdone⟩ := step_faults_or_completes h
  · exact .inl fun _ => rfl
  · obtain hsame | ⟨x, hw, hother⟩ := hdone.regs_cases
    · exact .inl hsame
    · exact .inr ⟨i, x, hat, hw, hother⟩

/-- A step leaves memory alone, or it is a `store` and writes the cell R[y] (R20, R36, R42). -/
theorem step_mem_cases {s t : State} (h : step s = .next t) :
    t.mem = s.mem ∨ ∃ x y, AtInstr s (.store x y) ∧ InRange (s.readReg y) ∧
      t.mem = s.mem.write (cellOf (s.readReg y)) (s.readReg x) := by
  obtain ⟨c, iw, info, rfl⟩ | ⟨i, hat, hdone⟩ := step_faults_or_completes h
  · exact .inl rfl
  · obtain e | ⟨x, y, rfl, hy, e⟩ := hdone.mem_cases
    · exact .inl e
    · exact .inr ⟨x, y, hat, hy, e⟩

/-- Settles O39: a cell that reads differently is the one that a `store` wrote. -/
theorem onlyStoreChangesMemory : Obligations.OnlyStoreChangesMemory := by
  intro s t a h hne
  obtain e | ⟨x, y, hat, hy, e⟩ := step_mem_cases h
  · exact absurd (by rw [e]) hne
  · have ha : a = cellOf (s.readReg y) := by
      by_contra hother
      exact hne (by rw [e, Memory.read_write_other _ _ _ _ hother])
    exact ⟨x, y, hat, hy, ha, by rw [e, ha, Memory.read_write_self]⟩

/-- Settles O40, by induction on the number of steps; a step that is no `store` to the cell keeps it, by O39. -/
theorem cellKeepsContentUntilStored : Obligations.CellKeepsContentUntilStored := by
  intro n
  induction n with
  | zero =>
    intro s t a h _
    cases h
    rfl
  | succ n ih =>
    intro s t a h hno
    obtain ⟨u, hstep, hrun⟩ := run_succ_cases h
    have hrest : t.mem.read a = u.mem.read a :=
      ih u t a hrun fun k v hk hv => hno (k + 1) v (by omega) ((run_succ_of_step hstep).trans hv)
    have hfirst : u.mem.read a = s.mem.read a := by
      by_contra hne
      obtain ⟨x, y, hat, hy, ha, -⟩ := onlyStoreChangesMemory s u a hstep hne
      exact hno 0 s (by omega) rfl x y hat hy ha.symm
    exact hrest.trans hfirst

end Sys2Proof.Machine
end

section
/-! What an unread register can show in, and the states in which a run starts (rules R13 and R24 of spec/10_state.md). -/

namespace Sys2Proof.Machine

/-! ### Two register writes -/

/-- The later of two writes to one register stands (R13). -/
theorem State.writeReg_writeReg_self (s : State) (r : RegIdx) (v w : Word) :
    (s.writeReg r v).writeReg r w = s.writeReg r w := by
  simp [State.writeReg]

/-- Writes to two registers commute. -/
theorem State.writeReg_writeReg_comm (s : State) {r x : RegIdx} (h : r ≠ x) (v w : Word) :
    (s.writeReg r v).writeReg x w = (s.writeReg x w).writeReg r v := by
  have hn : r.toNat ≠ x.toNat := fun e => h (BitVec.eq_of_toNat_eq e)
  simp only [State.writeReg]
  rw [Vector.set_comm _ _ hn]

/-! ### An unread register -/

/-- How `R[r] <- v` before an instruction shows in its result: R[r] is still v, or the instruction has overwritten it. -/
def ShowsAtMost (r : RegIdx) (v : Word) (a b : Result) : Prop :=
  ∀ t, a = .next t → b = .next (t.writeReg r v) ∨ b = .next t

section Unread
variable {s : State} {r : RegIdx} {v : Word}

/-- Where the instruction writes no register, R[r] is still v. -/
theorem next_showsAtMost (t : State) : ShowsAtMost r v (.next t) (.next (t.writeReg r v)) := by
  rintro u ⟨⟩
  exact .inl rfl

/-- Writing back a result that does not depend on R[r] overwrites R[r] or leaves it v. -/
theorem writeBack_showsAtMost (x : RegIdx) (w : Word) (s : State) :
    ShowsAtMost r v (writeBack x w s) (writeBack x w (s.writeReg r v)) := by
  rintro t ⟨⟩
  by_cases h : r = x
  · subst h
    exact .inr (by rw [writeBack, State.writeReg_writeReg_self])
  · exact .inl (by rw [writeBack, State.writeReg_writeReg_comm s h]; rfl)

/-- A transfer looks at R[x] alone (R134). -/
theorem transfer_showsAtMost {x : RegIdx} (hx : (s.writeReg r v).readReg x = s.readReg x) :
    ShowsAtMost r v (transfer x s) (transfer x (s.writeReg r v)) := by
  simp only [transfer, jumpTarget, hx]
  cases validAddr (s.readReg x)
  · exact next_showsAtMost _
  · exact next_showsAtMost _

/-- A conditional transfer looks at R[x] and its condition alone (R134). -/
theorem branch_showsAtMost {x : RegIdx} (taken : Bool) (hx : (s.writeReg r v).readReg x = s.readReg x) :
    ShowsAtMost r v (branch taken x s) (branch taken x (s.writeReg r v)) := by
  cases taken
  · exact next_showsAtMost _
  · exact transfer_showsAtMost hx

/-- The divider looks at its two operands alone (R107). -/
theorem divider_showsAtMost (f : Int → Int → Int) (x : RegIdx) {y z : RegIdx}
    (hy : (s.writeReg r v).readReg y = s.readReg y) (hz : (s.writeReg r v).readReg z = s.readReg z) :
    ShowsAtMost r v (divider f x y z s) (divider f x y z (s.writeReg r v)) := by
  simp only [divider, wrapping, hy, hz]
  cases divFaults (s.readReg y) (s.readReg z)
  · exact writeBack_showsAtMost _ _ _
  · exact next_showsAtMost _

/-- The input port looks at no register (R142). -/
theorem execIn_showsAtMost (x : RegIdx) : ShowsAtMost r v (execIn x s) (execIn x (s.writeReg r v)) := by
  obtain ⟨w, rest, hq, e⟩ | ⟨hq, hc, e⟩ | ⟨-, -, e⟩ := inRead_cases s
  · have e' : (s.writeReg r v).inRead = (.value w, ({ s with inq := rest } : State).writeReg r v) := by
      rw [State.inRead, State.writeReg_inq, hq]
      rfl
    rw [execIn, execIn, e, e']
    exact writeBack_showsAtMost _ _ _
  · have e' : (s.writeReg r v).inRead = (.closed, s.writeReg r v) := by
      rw [State.inRead, State.writeReg_inq, hq, State.writeReg_inclosed, hc]
      rfl
    rw [execIn, execIn, e, e']
    exact next_showsAtMost _
  · rw [execIn, e]
    rintro t ⟨⟩

/-- An instruction that does not read R[r] runs the same whatever R[r] holds (R13). -/
theorem exec_showsAtMost {i : Instr} (hr : r ∉ regsRead i) :
    ShowsAtMost r v (exec i s) (exec i (s.writeReg r v)) := by
  have hread : ∀ q ∈ regsRead i, (s.writeReg r v).readReg q = s.readReg q := fun q hq =>
    State.writeReg_readReg_other s r q v fun e => hr (e ▸ hq)
  cases i <;> simp only [regsRead, List.forall_mem_cons] at hread
  case add | sub | mul | and | or | not | const | sll =>
    simp only [exec, execAdd, execSub, execMul, wrapping, execAnd, execOr, execNot, execConst, execSll, hread]
    exact writeBack_showsAtMost _ _ _
  case div | mod => exact divider_showsAtMost _ _ hread.1 hread.2.1
  case load x y =>
    simp only [exec, execLoad, dataAddr, hread]
    cases validAddr (s.readReg y)
    · exact next_showsAtMost _
    · exact writeBack_showsAtMost _ _ _
  case store x y =>
    simp only [exec, execStore, dataAddr, hread]
    cases validAddr (s.readReg y)
    · exact next_showsAtMost _
    · exact next_showsAtMost _
  case goto => exact transfer_showsAtMost hread.1
  case ifeq | iflt =>
    simp only [exec, execIfeq, execIflt, hread]
    exact branch_showsAtMost _ hread.1
  case halt => exact next_showsAtMost _
  case inp x => exact execIn_showsAtMost x
  case out x =>
    simp only [exec, execOut, hread]
    exact next_showsAtMost _

end Unread

/-- Settles O43: the two results are one state, or differ in R[r] alone. -/
theorem unreadRegisterHasNoInfluence : Obligations.UnreadRegisterHasNoInfluence := by
  intro i s t r v hr h
  obtain e | e := exec_showsAtMost (v := v) hr t h
  · exact ⟨_, e, rfl, fun _ => rfl, ⟨rfl, rfl, rfl, rfl⟩, ⟨⟨rfl, rfl⟩, rfl⟩,
      fun q hq => State.writeReg_readReg_other t r q v hq, .inr (State.writeReg_readReg_self t r v)⟩
  · exact ⟨t, e, rfl, fun _ => rfl, ⟨rfl, rfl, rfl, rfl⟩, ⟨⟨rfl, rfl⟩, rfl⟩, fun _ _ => rfl, .inl rfl⟩

/-! ### The states in which a run starts -/

/-- All that loading does when the program fits: the cells from 0 on (R185). -/
theorem loadProgram_of_fits (s : State) {program : List Word} (h : program.length ≤ Config.memWords) :
    s.loadProgram program = some { s with mem := s.mem.writeList 0 program } := if_pos h

/-- A program that is loaded fits (R184), and loading is then all that happened. -/
theorem loadProgram_cases {s t : State} {program : List Word} (h : s.loadProgram program = some t) :
    program.length ≤ Config.memWords ∧ t = { s with mem := s.mem.writeList 0 program } := by
  rw [State.loadProgram] at h
  split at h
  · next hfits => exact ⟨hfits, (Option.some.inj h).symm⟩
  · cases h

/-- Reset leaves no fault record and the pc at 0, so it gives the invariant over any canonical memory (R180, R183). -/
theorem Inv.resetEvent {s : State} (hm : s.mem.wf = true) (regReset : Nat → Word) : Inv (s.resetEvent regReset) :=
  .of_no_record hm (.inr ⟨by simp, by simp⟩) rfl rfl rfl rfl

/-- Loading after a reset keeps the invariant: there is no fault record whose cell it could change (R185). -/
theorem Inv.loadProgram_resetEvent {s t : State} (hm : s.mem.wf = true) {regReset : Nat → Word} {program : List Word}
    (h : (s.resetEvent regReset).loadProgram program = some t) : Inv t := by
  obtain ⟨hfits, rfl⟩ := loadProgram_cases h
  have hmem : (s.mem.writeList 0 program).wf = true := Memory.wf_writeList s.mem 0 program (by omega) hm
  exact Inv.resetEvent (s := { s with mem := s.mem.writeList 0 program }) hmem regReset

/-- Settles O44: nothing is listed in memory, the pc is 0 and no fault is recorded. -/
theorem resetSatisfiesInv : Obligations.ResetSatisfiesInv :=
  .of_no_record Memory.wf_nil (.inr ⟨by decide, by decide⟩) rfl rfl rfl rfl

/-- Settles O47: a start is a reset and a load over a tabulated memory. -/
theorem everyStartSatisfiesInv : Obligations.EveryStartSatisfiesInv := by
  intro regReset memInit program input closed s h
  exact Inv.loadProgram_resetEvent (Memory.wf_tabulate memInit Config.memWords (le_refl _)) h

/-- What the cells below the size of memory hold after a program is loaded over MEM_INIT (R24, R182, R185). -/
theorem read_loaded (memInit : Nat → Word) (program : List Word) {a : Nat} (ha : a < Config.memWords) :
    ((Memory.tabulate memInit Config.memWords).writeList 0 program).read a =
      if h : a < program.length then program[a] else memInit a := by
  rw [Memory.read_writeList, Memory.read_tabulate, if_pos ha]
  simp

/-- The state in which a run starts, as a reset over the loaded memory. -/
def startState (regReset memInit : Nat → Word) (program input : List Word) (closed : Bool) : State :=
  ({ State.reset with
      mem := (Memory.tabulate memInit Config.memWords).writeList 0 program
      inq := input
      inclosed := closed } : State).resetEvent regReset

/-- A program that fits starts (R24, R186). -/
theorem start_of_fits (regReset memInit : Nat → Word) {program : List Word} (input : List Word) (closed : Bool)
    (h : program.length ≤ Config.memWords) :
    State.start regReset memInit program input closed = some (startState regReset memInit program input closed) :=
  loadProgram_of_fits _ h

/-- Settles O48: the registers are those of the reset, the cells those of the load over MEM_INIT. -/
theorem startStateIsTheSpecs : Obligations.StartStateIsTheSpecs := by
  intro regReset memInit program input closed hfits
  refine ⟨startState regReset memInit program input closed, start_of_fits regReset memInit input closed hfits, rfl,
    by simp [Running, startState], State.resetEvent_readReg _ regReset, ?_, ?_, rfl, rfl, rfl, rfl, rfl, rfl, rfl⟩
  · intro a ha
    exact (read_loaded memInit program (Nat.lt_of_lt_of_le ha hfits)).trans (dif_pos ha)
  · intro a ha hlast
    exact (read_loaded memInit program (Nat.lt_succ_of_le hlast)).trans (dif_neg (Nat.not_lt.mpr ha))

end Sys2Proof.Machine
end

section
/-! Instruction-fetch coherence: a fetch reads what was last stored, however far away the store is (rule R41 of
spec/20_memory.md). -/

namespace Sys2Proof.Machine

/-! ### The cell that an address names -/

/-- Two valid addresses that name one cell are one Word: an address is never wrapped or masked (R31). -/
theorem cellOf_inj {v p : Word} (hv : InRange v) (hp : InRange p) (h : cellOf p = cellOf v) : p = v := by
  obtain ⟨hv0, -⟩ := hv
  obtain ⟨hp0, -⟩ := hp
  apply BitVec.eq_of_toInt_eq
  simp only [cellOf, signed] at *
  omega

/-- What a write to the cell of v does to the cell of every valid address (R32). -/
theorem State.memWrite_read_cellOf (s : State) {v p : Word} (w : Word) (hv : InRange v) (hp : InRange p) :
    (s.memWrite v w).mem.read (cellOf p) = if p = v then w else s.mem.read (cellOf p) := by
  by_cases h : p = v
  · rw [if_pos h, h, State.memWrite_mem, Memory.read_write_self]
  · rw [if_neg h, State.memWrite_mem, Memory.read_write_other _ _ _ _ fun e => h (cellOf_inj hv hp e)]

/-! ### The fetch, and the step of a `store` -/

/-- From a valid address the fetch reads the current content of its cell, whatever the rest of the state (R82). -/
theorem fetch_of_inRange {s : State} (h : InRange s.pc) : fetch s = some (wordAtPc s) :=
  if_pos ((validAddr_iff _).mpr h)

/-- The step where an instruction stands at the pc is the body of that instruction (R80). -/
theorem step_of_atInstr {s : State} {i : Instr} (h : AtInstr s i) : step s = exec i s := by
  obtain ⟨hpc, hdec⟩ := h
  have hrun : s.isHalted = false := decide_eq_false (not_lt.mpr hpc.1)
  rw [step, hrun, if_neg Bool.false_ne_true, fetch_of_inRange hpc]
  dsimp only
  rw [hdec]

/-- The step of a `store` whose address is valid writes the cell R[y] and advances (R121). -/
theorem step_of_store {s : State} {x y : RegIdx} (hat : AtInstr s (.store x y)) (hy : InRange (s.readReg y)) :
    step s = .next (s.memWrite (s.readReg y) (s.readReg x)).advance := by
  obtain ⟨-, haddr⟩ | ⟨hno, -⟩ := dataAddr_cases s y
  · rw [step_of_atInstr hat, exec, execStore, haddr]
  · exact absurd hy hno

/-! ### A cell to which no later step stores -/

/-- A step keeps the cell of p unless it is a `store` to p (R20). -/
theorem step_keeps_cell {s t : State} {p : Word} (h : step s = .next t) (hp : InRange p)
    (hno : ∀ x y, AtInstr s (.store x y) → s.readReg y ≠ p) : t.mem.read (cellOf p) = s.mem.read (cellOf p) := by
  by_contra hne
  obtain ⟨x, y, hat, hy, hcell, -⟩ := onlyStoreChangesMemory s t _ h hne
  exact hno x y hat (cellOf_inj hp hy hcell.symm)

/-- One move keeps the cell of p: the supplier's moves do not touch memory, and a step is no `store` to p (R20, R142). -/
theorem State.move_keeps_cell {s t : State} {m : Move} {ms : List Move} {p : Word} (h : s.move m = some t)
    (hp : InRange p) (hno : NoStoreTo p (m :: ms) s) : t.mem.read (cellOf p) = s.mem.read (cellOf p) := by
  obtain ⟨rfl, hstep⟩ | ⟨w, -, rfl⟩ | ⟨-, rfl⟩ := State.move_cases h
  · exact step_keeps_cell hstep hp (hno [] ms s rfl rfl)
  · rw [State.supplyInput_mem]
  · rw [State.closeInput_mem]

/-- A cell keeps its content along every sequence of moves in which no step stores to it, by induction on the moves. -/
theorem State.moves_keep_cell {ms : List Move} {s t : State} {p : Word} (h : s.moves ms = some t) (hp : InRange p)
    (hno : NoStoreTo p ms s) : t.mem.read (cellOf p) = s.mem.read (cellOf p) := by
  induction ms generalizing s with
  | nil =>
    cases h
    rfl
  | cons m ms ih =>
    obtain ⟨u, hmove, hrest⟩ := State.moves_cons_cases h
    exact (ih hrest (hno.tail hmove)).trans (State.move_keeps_cell hmove hp hno)

/-! ### The fetches after a store -/

/-- Settles O51: the fetch reads its cell, the moves since the store have kept that cell, and the store made it what it is. -/
theorem everyLaterFetchSeesTheStore : Obligations.EveryLaterFetchSeesTheStore := by
  intro s x y hat hy
  refine ⟨_, step_of_store hat hy, rfl, fun ms u p hmoves hp hno => ?_⟩
  calc fetch (u.setPc p)
      = some (u.mem.read (cellOf p)) := fetch_of_inRange hp
    _ = some ((s.memWrite (s.readReg y) (s.readReg x)).advance.mem.read (cellOf p)) :=
        congrArg some (State.moves_keep_cell hmoves hp hno)
    _ = _ := congrArg some (s.memWrite_read_cellOf (s.readReg x) hy hp)

/-- Settles O27: the fetch right after the store is the later fetch of O51 with no move in between. -/
theorem laterFetchesSeeTheStore : Obligations.LaterFetchesSeeTheStore := by
  intro s x y hat hy
  obtain ⟨t, hstep, hadv, hfetch⟩ := everyLaterFetchSeesTheStore s x y hat hy
  have hno (p : Word) : NoStoreTo p [] t := fun before after v e => by simp at e
  exact ⟨t, hstep, hadv, fun p hp => hfetch [] t p rfl hp (hno p)⟩

end Sys2Proof.Machine
end

section
/-! The encoding format (spec/30_encoding.md): the five fields against the two shapes, decode against encode, the bits that
an opcode ignores, and the range of the encoders. -/

namespace Sys2Proof.Machine

open Laws.CanonicalEncoding (encodeXYZ_toNat encodeConst_toNat)

/-! ### The fields of the two shapes, and the two shapes of the fields -/

/-- The fields of a word of the XYZ shape; c is y and z over twelve zeros (R54, R57). -/
theorem fields_encodeXYZ (op x y z : BitVec 5) : fields (encodeXYZ op x y z) = ⟨op, x, y, z, y ++ z ++ 0#12⟩ := by
  have hc : (y ++ z ++ 0#12).toNat = y.toNat * 2 ^ 17 + z.toNat * 2 ^ 12 := by
    have hlow := toNat_append_eq (y ++ z) 0#12
    have hyz := toNat_append_eq y z
    exact hlow.trans (by rw [hyz]; simp only [BitVec.toNat_zero]; omega)
  have := op.isLt; have := x.isLt; have := y.isLt; have := z.isLt
  apply fields_eq_of <;> rw [encodeXYZ_toNat] <;> omega

/-- The fields of a word of the Const shape; y and z are the upper bits of c (R54, R57). -/
theorem fields_encodeConst (op x : BitVec 5) (c : Imm22) :
    fields (encodeConst op x c) = ⟨op, x, c.extractLsb' 17 5, c.extractLsb' 12 5, c⟩ := by
  have := op.isLt; have := x.isLt; have := c.isLt
  have hy : (c.extractLsb' 17 5).toNat = c.toNat / 2 ^ 17 % 2 ^ 5 := by
    rw [BitVec.extractLsb'_toNat, Nat.shiftRight_eq_div_pow]
  have hz : (c.extractLsb' 12 5).toNat = c.toNat / 2 ^ 12 % 2 ^ 5 := by
    rw [BitVec.extractLsb'_toNat, Nat.shiftRight_eq_div_pow]
  apply fields_eq_of <;> rw [encodeConst_toNat] <;> omega

/-- The XYZ shape of a word's fields is the word without its bits 11:0 (R57). -/
theorem encodeXYZ_fields_toNat (iw : Word) :
    (encodeXYZ (fields iw).op (fields iw).x (fields iw).y (fields iw).z).toNat + iw.toNat % 2 ^ 12 = iw.toNat := by
  rw [encodeXYZ_toNat, fields_op_toNat, fields_x_toNat, fields_y_toNat, fields_z_toNat]
  omega

/-- The Const shape of a word's fields is the word (R57). -/
theorem encodeConst_fields (iw : Word) : encodeConst (fields iw).op (fields iw).x (fields iw).c = iw := by
  apply BitVec.eq_of_toNat_eq
  rw [encodeConst_toNat, fields_op_toNat, fields_x_toNat, fields_c_toNat]
  omega

/-! ### Decode after encode -/

/-- The decoder reads every instruction back from its canonical word (R62). -/
theorem decode_encode (i : Instr) : decode (encode i) = .ok i := by
  cases i with
  | const x c => rw [encode, decode, fields_encodeConst]; rfl
  | _ => rw [encode, decode, fields_encodeXYZ]; rfl

/-- Settles O1: the fields carry the widths that the encoder checks, and the decoder cuts the same fields out again. -/
theorem decodeOfEncodeIsIdentity : Obligations.DecodeOfEncodeIsIdentity := fun i => ⟨instr_wf i, decode_encode i⟩

/-- Settles O2: the fields of the two shapes, and the number that a word's fields give back. -/
theorem fieldsRoundTripBothShapes : Obligations.FieldsRoundTripBothShapes := by
  refine ⟨fun op x y z => ?_, fun op x c => ?_, fun iw => ⟨?_, encodeConst_fields iw⟩⟩
  · have hc := fields_c_toNat (encodeXYZ op x y z)
    rw [encodeXYZ_toNat] at hc
    have := y.isLt; have := z.isLt
    rw [fields_encodeXYZ] at hc ⊢
    exact ⟨rfl, rfl, rfl, rfl, by omega⟩
  · have := c.isLt
    rw [fields_encodeConst]
    refine ⟨rfl, rfl, rfl, ?_, ?_⟩ <;> rw [BitVec.extractLsb'_toNat, Nat.shiftRight_eq_div_pow]
    omega
  · have hsum := encodeXYZ_fields_toNat iw
    rw [← BitVec.toNat_inj]
    omega

/-! ### The ignored bits -/

/-- The opcode field is never ignored (R59). -/
theorem ignoredBits_le (op : Nat) : ignoredBits op ≤ 27 := by
  unfold ignoredBits
  split_ifs <;> omega

/-- Words that agree from bit n on have the same slices from bit n on. -/
theorem extractLsb'_congr {v w : Word} {n k : Nat} (h : v.toNat / 2 ^ n = w.toNat / 2 ^ n) (hk : n ≤ k) (len : Nat) :
    v.extractLsb' k len = w.extractLsb' k len := by
  apply BitVec.eq_of_toNat_eq
  rw [BitVec.extractLsb'_toNat, BitVec.extractLsb'_toNat, Nat.shiftRight_eq_div_pow, Nat.shiftRight_eq_div_pow,
    ← Nat.add_sub_cancel' hk, Nat.pow_add, ← Nat.div_div_eq_div_mul, ← Nat.div_div_eq_div_mul, h]

/-- The opcode selects which fields decode looks at, and it looks at none that reaches into the ignored bits (R59). -/
theorem decode_congr {v w : Word}
    (h : unsigned v / 2 ^ ignoredBits (opcodeNumber v) = unsigned w / 2 ^ ignoredBits (opcodeNumber v)) :
    decode v = decode w := by
  have hop : (fields v).op = (fields w).op := extractLsb'_congr h (ignoredBits_le _) 5
  have hx (hn : ignoredBits (opcodeNumber v) ≤ 22) : (fields v).x = (fields w).x := extractLsb'_congr h hn 5
  have hy (hn : ignoredBits (opcodeNumber v) ≤ 17) : (fields v).y = (fields w).y := extractLsb'_congr h hn 5
  have hz (hn : ignoredBits (opcodeNumber v) ≤ 12) : (fields v).z = (fields w).z := extractLsb'_congr h hn 5
  have hc (hn : ignoredBits (opcodeNumber v) ≤ 0) : (fields v).c = (fields w).c := extractLsb'_congr h hn 22
  have hnum : opcodeNumber v = (fields w).op.toNat := by rw [← hop, fields_op_toNat]
  rw [hnum] at hx hy hz hc
  simp only [decode, hop]
  split
  case h_16 | h_19 => rfl
  case h_13 e | h_17 e | h_18 e => rw [hx (by rw [e]; decide)]
  case h_8 e | h_11 e | h_12 e => rw [hx (by rw [e]; decide), hy (by rw [e]; decide)]
  case h_9 e => rw [hx (by rw [e]; decide), hc (by rw [e]; decide)]
  all_goals next e => rw [hx (by rw [e]; decide), hy (by rw [e]; decide), hz (by rw [e]; decide)]

/-- Settles O5: the fields that the opcode selects lie above the bits it ignores. -/
theorem ignoredBitsSelectNothing : Obligations.IgnoredBitsSelectNothing := fun _ _ => decode_congr

/-- A word is an instruction when it agrees with the canonical one above the bits that the instruction ignores (R59). -/
theorem decode_of_agrees {iw : Word} {i : Instr}
    (h : unsigned iw / 2 ^ ignoredBits (opcodeOf i) = unsigned (encode i) / 2 ^ ignoredBits (opcodeOf i)) :
    decode iw = .ok i := by
  have hop : opcodeNumber (encode i) = opcodeOf i := decode_opcode (decode_encode i)
  rw [← hop] at h
  exact (decode_congr h.symm).symm.trans (decode_encode i)

/-- A word of the XYZ shape with any bits 11:0 agrees with the canonical one above them. -/
theorem wordXYZ_above (op x y z : BitVec 5) (low : BitVec 12) :
    (wordXYZ op x y z low).toNat / 2 ^ 12 = (encodeXYZ op x y z).toNat / 2 ^ 12 := by
  rw [wordXYZ_toNat, encodeXYZ_toNat]
  omega

/-- A word that uses op, x and y, with any bits 16:0, agrees with the canonical one above them. -/
theorem wordXY_above (op x y : BitVec 5) (low : BitVec 17) :
    (wordXY op x y low).toNat / 2 ^ 17 = (encodeXYZ op x y 0#5).toNat / 2 ^ 17 := by
  rw [wordXY_toNat, encodeXYZ_toNat]
  simp only [BitVec.toNat_zero]
  omega

/-- A word that uses op and x, with any bits 21:0, agrees with the canonical one above them. -/
theorem wordX_above (op x : BitVec 5) (low : BitVec 22) :
    (wordX op x low).toNat / 2 ^ 22 = (encodeXYZ op x 0#5 0#5).toNat / 2 ^ 22 := by
  rw [wordX_toNat, encodeXYZ_toNat]
  simp only [BitVec.toNat_zero]
  omega

/-- A word that uses op alone, with any bits 26:0, agrees with the canonical one above them. -/
theorem wordOp_above (op : BitVec 5) (low : BitVec 27) :
    (wordOp op low).toNat / 2 ^ 27 = (encodeXYZ op 0#5 0#5 0#5).toNat / 2 ^ 27 := by
  rw [wordOp_toNat, encodeXYZ_toNat]
  simp only [BitVec.toNat_zero]
  omega

/-! ### The refused words -/

/-- The unassigned opcodes as a range of words (R60). -/
theorem unassigned_iff_range (iw : Word) :
    UnassignedOpcode (opcodeNumber iw) ↔ unsigned iw < 0x08000000 ∨ 0x98000000 ≤ unsigned iw := by
  simp only [UnassignedOpcode, opcodeNumber]
  omega

/-- Every other word is an instruction (R61). -/
theorem decode_ok_of_assigned {iw : Word} (h : ¬ UnassignedOpcode (opcodeNumber iw)) : ∃ i, decode iw = .ok i := by
  cases hdec : decode iw with
  | ok i => exact ⟨i, rfl⟩
  | error e => exact absurd (decode_error_cases hdec).2 h

/-- Settles O3: the range is that of the unassigned opcodes. -/
theorem refusedWordsAreTheUnassignedOnes : Obligations.RefusedWordsAreTheUnassignedOnes := by
  intro iw
  rw [← unassigned_iff_range]
  refine ⟨fun h => ⟨(fields iw).op, decode_unassigned h, fields_op_toNat iw, ?_⟩, decode_ok_of_assigned⟩
  rw [fields_op_toNat]
  exact h

/-! ### The encoders as numbers -/

/-- The range check of an `encodeXYZ` call (R55). -/
theorem wf_xyz_iff (op x y z : Nat) :
    (EncoderCall.xyz op x y z).wf = true ↔ op ≤ 31 ∧ x ≤ 31 ∧ y ≤ 31 ∧ z ≤ 31 := by
  simp only [EncoderCall.wf, fitsFive, Config.regWidth, Bool.and_eq_true, decide_eq_true_eq]
  omega

/-- The range check of an `encodeConst` call (R56). -/
theorem wf_const_iff (op x c : Nat) : (EncoderCall.const op x c).wf = true ↔ op ≤ 31 ∧ x ≤ 31 ∧ c ≤ 4194303 := by
  simp only [EncoderCall.wf, fitsFive, fitsConst, Config.regWidth, Config.constWidth, Bool.and_eq_true,
    decide_eq_true_eq]
  omega

/-- The word of an `encodeXYZ` call in range, as a number (R55). -/
theorem encodeXYZ_ofNat {op x y z : Nat} (h : op ≤ 31 ∧ x ≤ 31 ∧ y ≤ 31 ∧ z ≤ 31) :
    encodeXYZ (BitVec.ofNat 5 op) (BitVec.ofNat 5 x) (BitVec.ofNat 5 y) (BitVec.ofNat 5 z) =
      BitVec.ofNat 32 (op * 2 ^ 27 + x * 2 ^ 22 + y * 2 ^ 17 + z * 2 ^ 12) := by
  apply BitVec.eq_of_toNat_eq
  simp only [encodeXYZ_toNat, BitVec.toNat_ofNat]
  omega

/-- The word of an `encodeConst` call in range, as a number (R56). -/
theorem encodeConst_ofNat {op x c : Nat} (h : op ≤ 31 ∧ x ≤ 31 ∧ c ≤ 4194303) :
    encodeConst (BitVec.ofNat 5 op) (BitVec.ofNat 5 x) (BitVec.ofNat 22 c) =
      BitVec.ofNat 32 (op * 2 ^ 27 + x * 2 ^ 22 + c) := by
  apply BitVec.eq_of_toNat_eq
  simp only [encodeConst_toNat, BitVec.toNat_ofNat]
  omega

/-- The call that the assembler makes for an instruction gives its canonical word (R55, R56, R62). -/
theorem encode_encoderCall (i : Instr) : i.encoderCall.encode = some (encode i) := by
  unfold EncoderCall.encode
  rw [if_pos (show i.encoderCall.wf = true from instr_wf i)]
  cases i <;> simp only [Instr.encoderCall, encode, BitVec.ofNat_toNat, BitVec.setWidth_eq]

/-- Settles O4: the range check is the stated one, and in range the bit string is the stated number. -/
theorem encoderAcceptsExactlyTheRange : Obligations.EncoderAcceptsExactlyTheRange := by
  refine ⟨fun op x y z => ?_, fun op x c => ?_, encode_encoderCall⟩
  · rw [EncoderCall.encode, ← if_congr (wf_xyz_iff op x y z) rfl rfl]
    split
    · next h => exact congrArg some (encodeXYZ_ofNat ((wf_xyz_iff op x y z).mp h))
    · rfl
  · rw [EncoderCall.encode, ← if_congr (wf_const_iff op x c) rfl rfl]
    split
    · next h => exact congrArg some (encodeConst_ofNat ((wf_const_iff op x c).mp h))
    · rfl

/-- Settles O6: the eight words are evaluated. -/
theorem listedWordsDecodeAsListed : Obligations.ListedWordsDecodeAsListed := by
  unfold Obligations.ListedWordsDecodeAsListed
  decide

end Sys2Proof.Machine
end

section
/-! The assembly language and back (rules R65 to R72 of spec/30_encoding.md): the line and the text of a word, and the text
of a whole image. -/

namespace Sys2Proof.Machine

/-! ### The line of a word -/

/-- The line of a word that is an instruction (R72). -/
theorem disassemble_of_decode {iw : Word} {i : Instr} (h : decode iw = .ok i) :
    disassemble iw = some (sourceLine i) := by
  rw [disassemble, h]

/-- A word has no line exactly when its opcode is unassigned (R72). -/
theorem disassemble_eq_none_iff (iw : Word) : disassemble iw = none ↔ UnassignedOpcode (opcodeNumber iw) := by
  constructor
  · intro h
    by_contra hun
    obtain ⟨i, hi⟩ := decode_ok_of_assigned hun
    rw [disassemble_of_decode hi] at h
    cases h
  · intro h
    rw [disassemble, decode_unassigned h]

/-- A line is that of the word's instruction. -/
theorem disassemble_cases {iw : Word} {l : SourceLine} (h : disassemble iw = some l) :
    ∃ i, decode iw = .ok i ∧ l = sourceLine i := by
  cases hdec : decode iw with
  | ok i =>
    rw [disassemble_of_decode hdec] at h
    exact ⟨i, rfl, (Option.some.inj h).symm⟩
  | error e =>
    rw [disassemble, hdec] at h
    cases h

/-- A register number that came from a field is in range (R68). -/
theorem asReg_toNat (x : RegIdx) : asReg (.reg x.toNat) = .ok x := by
  rw [asReg, fitsFive, if_pos (decide_eq_true x.isLt), BitVec.ofNat_toNat, BitVec.setWidth_eq]

/-- A shift amount that came from a field is in range (R69). -/
theorem asShamt_toNat (sh : Shamt) : asShamt (.lit sh.toNat) = .ok sh := by
  rw [asShamt, fitsFive, if_pos (decide_eq_true sh.isLt), BitVec.ofNat_toNat, BitVec.setWidth_eq]

/-- An immediate that came from a field is in range (R69). -/
theorem asImmediate_toNat (c : Imm22) : asImmediate (.lit c.toNat) = .ok c := by
  rw [asImmediate, fitsConst, if_pos (decide_eq_true c.isLt), BitVec.ofNat_toNat, BitVec.setWidth_eq]

/-- Assembling the line of an instruction gives it back: mnemonic, arity and operand order are its own (R67). -/
theorem assembleLine_sourceLine (i : Instr) : assembleLine (sourceLine i) = .ok i := by
  cases i with
  | halt => rfl
  | goto | inp | out => simp only [sourceLine, assembleLine, operands1, asReg_toNat]; rfl
  | not | load | store => simp only [sourceLine, assembleLine, operands2, asReg_toNat]; rfl
  | const => simp only [sourceLine, assembleLine, operands2, asReg_toNat, asImmediate_toNat]; rfl
  | sll => simp only [sourceLine, assembleLine, operands3, asReg_toNat, asShamt_toNat]; rfl
  | _ => simp only [sourceLine, assembleLine, operands3, asReg_toNat]; rfl

/-- Settles O7: the line is that of the decoded instruction, which assembles to that instruction. -/
theorem disassemblyAssemblesBack : Obligations.DisassemblyAssemblesBack := by
  refine ⟨fun iw l h => ?_, disassemble_eq_none_iff⟩
  obtain ⟨i, hdec, rfl⟩ := disassemble_cases h
  exact ⟨i, assembleLine_sourceLine i, (decode_encode i).trans hdec.symm⟩

/-! ### The text of a word -/

/-- The text form of a word that is an instruction (R72). -/
theorem disassembleText_of_decode {iw : Word} {i : Instr} (h : decode iw = .ok i) :
    disassembleText iw = some (lineText (sourceLine i)) := by
  rw [disassembleText, disassemble_of_decode h, Option.map_some]

/-- A word has no text form exactly when its opcode is unassigned (R72). -/
theorem disassembleText_eq_none_iff (iw : Word) : disassembleText iw = none ↔ UnassignedOpcode (opcodeNumber iw) := by
  rw [disassembleText, Option.map_eq_none_iff, disassemble_eq_none_iff]

/-! ### The text of an image -/

/-- The text of an image, word by word: none when the first word has none (log 13). -/
theorem disassembleProgram_cons (iw : Word) (program : List Word) :
    disassembleProgram (iw :: program) =
      (disassembleText iw).bind fun line => (disassembleProgram program).map (line ++ '\n' :: ·) := by
  unfold disassembleProgram
  rw [List.mapM_cons]
  cases disassembleText iw with
  | none => rfl
  | some line =>
    cases program.mapM disassembleText with
    | none => rfl
    | some lines => simp

/-- Settles O54, by induction on the image. -/
theorem imageHasTextUnlessAWordIsUnassigned : Obligations.ImageHasTextUnlessAWordIsUnassigned := by
  intro program
  induction program with
  | nil => exact ⟨nofun, nofun⟩
  | cons iw program ih =>
    rw [List.exists_mem_cons_iff, ← disassembleText_eq_none_iff, ← ih, disassembleProgram_cons]
    cases disassembleText iw <;> simp

/-- The text that the disassembler writes for a list of instructions: a line each, ended by a newline (log 13). -/
def programText (instrs : List Instr) : List Char :=
  (instrs.map (lineText ∘ sourceLine)).flatMap (fun line => line ++ ['\n'])

/-- An image that has a text is a list of instructions, and the text is theirs. -/
theorem disassembleProgram_cases {program : List Word} {text : List Char} (h : disassembleProgram program = some text) :
    ∃ instrs : List Instr, program.map decode = instrs.map .ok ∧ text = programText instrs := by
  induction program generalizing text with
  | nil =>
    cases h
    exact ⟨[], rfl, rfl⟩
  | cons iw program ih =>
    rw [disassembleProgram_cons] at h
    obtain ⟨line, hline, hrest⟩ := Option.bind_eq_some_iff.mp h
    obtain ⟨l, hl, rfl⟩ := Option.map_eq_some_iff.mp hline
    obtain ⟨rest, htext, rfl⟩ := Option.map_eq_some_iff.mp hrest
    obtain ⟨i, hdec, rfl⟩ := disassemble_cases hl
    obtain ⟨instrs, hdecs, rfl⟩ := ih htext
    exact ⟨i :: instrs, by rw [List.map_cons, hdec, hdecs, List.map_cons], by simp [programText]⟩

/-- The lines of a disassembled image, as tokens; the empty piece after the last newline is dropped (R65, R66). -/
theorem lines_programText (instrs : List Instr) :
    ((splitChars (fun c => c == '\n') (programText instrs)).map tokens).filter (fun ts => !ts.isEmpty) =
      instrs.map (fun i => tokens (lineText (sourceLine i))) := by
  have hclean : ∀ v ∈ instrs.map (lineText ∘ sourceLine), ∀ c ∈ v, (c == '\n') = false := by
    intro v hv c hc
    obtain ⟨i, -, rfl⟩ := List.mem_map.mp hv
    refine beq_eq_false_iff_ne.mpr ?_
    rintro rfl
    obtain hspace | ⟨hge, -⟩ := mem_lineText hc
    · exact absurd hspace (by decide)
    · exact absurd hge (by decide)
  have hfull : ∀ ts ∈ instrs.map (fun i => tokens (lineText (sourceLine i))), (!ts.isEmpty) = true := by
    intro ts hts
    obtain ⟨i, -, rfl⟩ := List.mem_map.mp hts
    rw [tokens_lineText]
    rfl
  rw [programText, splitChars_lines (by decide) hclean, List.map_append, List.map_map, List.filter_append]
  exact (congrArg (· ++ []) (List.filter_eq_self.mpr hfull)).trans (List.append_nil _)

/-- Assembling the text of a list of instructions gives their canonical words (R65, R67). -/
theorem assembleText_programText (instrs : List Instr) : assembleText (programText instrs) = .ok (instrs.map encode) := by
  have hlines : (instrs.map (fun i => tokens (lineText (sourceLine i)))).mapM assembleTokens = .ok instrs := by
    induction instrs with
    | nil => rfl
    | cons i instrs ih => rw [List.map_cons, List.mapM_cons, assembleTokens_lineText, assembleLine_sourceLine, ih]; rfl
  rw [assembleText, lines_programText, hlines]
  rfl

/-- Settles O53: the text is that of the decoded instructions, and decode reads their canonical words back. -/
theorem disassembledTextAssemblesBack : Obligations.DisassembledTextAssemblesBack := by
  intro program text h
  obtain ⟨instrs, hdec, rfl⟩ := disassembleProgram_cases h
  refine ⟨instrs.map encode, assembleText_programText instrs, ?_⟩
  rw [hdec, List.map_map]
  exact List.map_congr_left fun i _ => decode_encode i

/-! ### The rows of R67 -/

/-- The row of a line with one operand (R67). -/
theorem lineText_one (m : String) (a : Operand) : lineText ⟨m, [a]⟩ = m.toList ++ ' ' :: operandText a := by
  simp [lineText]

/-- The row of a line with two operands (R67). -/
theorem lineText_two (m : String) (a b : Operand) :
    lineText ⟨m, [a, b]⟩ = m.toList ++ ' ' :: operandText a ++ ' ' :: operandText b := by
  simp [lineText]

/-- The row of a line with three operands (R67). -/
theorem lineText_three (m : String) (a b c : Operand) :
    lineText ⟨m, [a, b, c]⟩ = m.toList ++ ' ' :: operandText a ++ ' ' :: operandText b ++ ' ' :: operandText c := by
  simp [lineText]

/-- The text form of a word that agrees with the canonical one above the ignored bits is the row of its instruction
(R67, R72). -/
theorem disassembleText_of_agrees {iw : Word} {row : List Char} (i : Instr)
    (h : unsigned iw / 2 ^ ignoredBits (opcodeOf i) = unsigned (encode i) / 2 ^ ignoredBits (opcodeOf i))
    (hrow : lineText (sourceLine i) = row) : disassembleText iw = some row := by
  rw [disassembleText_of_decode (decode_of_agrees h), hrow]

/-- Settles O52: each word is the instruction of its row, whose line has the mnemonic and the used fields. -/
theorem textFormIsTheSyntaxRow : Obligations.TextFormIsTheSyntaxRow := by
  refine ⟨fun x y z low => ?_, fun x y low => ?_, fun x low => ?_, fun low => ?_, disassembleText_eq_none_iff⟩
  · have above (op : BitVec 5) := wordXYZ_above op x y z low
    exact ⟨disassembleText_of_agrees (.add x y z) (above _) (lineText_three ..),
      disassembleText_of_agrees (.sub x y z) (above _) (lineText_three ..),
      disassembleText_of_agrees (.mul x y z) (above _) (lineText_three ..),
      disassembleText_of_agrees (.div x y z) (above _) (lineText_three ..),
      disassembleText_of_agrees (.mod x y z) (above _) (lineText_three ..),
      disassembleText_of_agrees (.and x y z) (above _) (lineText_three ..),
      disassembleText_of_agrees (.or x y z) (above _) (lineText_three ..),
      disassembleText_of_agrees (.sll x y z) (above _) (lineText_three ..),
      disassembleText_of_agrees (.ifeq x y z) (above _) (lineText_three ..),
      disassembleText_of_agrees (.iflt x y z) (above _) (lineText_three ..)⟩
  · have above (op : BitVec 5) := wordXY_above op x y low
    exact ⟨disassembleText_of_agrees (.not x y) (above _) (lineText_two ..),
      disassembleText_of_agrees (.load x y) (above _) (lineText_two ..),
      disassembleText_of_agrees (.store x y) (above _) (lineText_two ..)⟩
  · have above (op : BitVec 5) := wordX_above op x low
    exact ⟨disassembleText_of_agrees (.const x low) rfl (lineText_two ..),
      disassembleText_of_agrees (.goto x) (above _) (lineText_one ..),
      disassembleText_of_agrees (.inp x) (above _) (lineText_one ..),
      disassembleText_of_agrees (.out x) (above _) (lineText_one ..)⟩
  · exact disassembleText_of_agrees .halt (wordOp_above _ low) (by simp [lineText, sourceLine])

end Sys2Proof.Machine
end

section
/-! Fetch, dispatch and the pc update: the one answer that a step has in each situation, and where it leaves the pc (rules
R80 to R89 of spec/40_fetch_decode_dispatch.md). -/

namespace Sys2Proof.Machine

/-! ### The step in each situation -/

/-- The Halted engine has no step (R81). -/
theorem step_of_halted {s : State} (h : Halted s) : step s = .fault .halted := if_pos (decide_eq_true h)

/-- A Running engine passes the check that comes first in a step (R158). -/
theorem isHalted_eq_false {s : State} (h : Running s) : s.isHalted = false := decide_eq_false (not_lt.mpr h)

/-- A pc past the last cell takes the fetch fault (R82). -/
theorem step_of_past_last_cell {s : State} (h : 65535 < signed s.pc) : step s = .next (fetchFault s) := by
  have hfetch : fetch s = none := by
    refine if_neg fun hvalid => ?_
    obtain ⟨-, hle⟩ := (validAddr_iff _).mp hvalid
    omega
  rw [step, isHalted_eq_false (by omega), if_neg Bool.false_ne_true, hfetch]

/-- A word that is no instruction takes the unknown opcode fault (R84). -/
theorem step_of_decode_error {s : State} {op : BitVec 5} (hpc : InRange s.pc)
    (hdec : decode (wordAtPc s) = .error (.unknownOpcode op)) : step s = .next (unknownOpcodeFault s op) := by
  rw [step, isHalted_eq_false hpc.1, if_neg Bool.false_ne_true, fetch_of_inRange hpc]
  dsimp only
  rw [hdec]

/-- Settles O8: nothing is added around the body of the instruction. -/
theorem stepRunsDecodedInstruction : Obligations.StepRunsDecodedInstruction := fun _ _ => step_of_atInstr

/-! ### The instruction at the pc -/

/-- The instruction at the pc depends on the pc and on memory alone (R80, R83). -/
theorem AtInstr.congr {s t : State} {i : Instr} (h : AtInstr s i) (hpc : t.pc = s.pc) (hmem : t.mem = s.mem) :
    AtInstr t i := by
  rw [AtInstr, hpc, hmem]
  exact h

/-! ### The three answers of `in` -/

/-- `in` takes the head of the input stream into its destination (R140). -/
theorem execIn_of_value {s : State} {w : Word} {rest : List Word} (x : RegIdx) (hq : s.inq = w :: rest) :
    execIn x s = writeBack x w { s with inq := rest } := by
  rw [execIn, State.inRead, hq]

/-- `in` takes IOFault(0) on an exhausted and closed stream (R140). -/
theorem execIn_of_closed {s : State} (x : RegIdx) (hq : s.inq = []) (hc : s.inclosed = true) :
    execIn x s = .next (s.raise .io 0#32) := by
  rw [execIn, State.inRead, hq, hc]
  rfl

/-- `in` holds on an empty open stream (R141). -/
theorem execIn_of_empty_open {s : State} (x : RegIdx) (hq : s.inq = []) (hc : s.inclosed = false) :
    execIn x s = .fault .inputNotReady := by
  rw [execIn, State.inRead, hq, hc]
  rfl

/-! ### When an instruction and a step answer a next state -/

/-- A transfer always answers a next state: the target's, or the fault's (R134). -/
theorem transfer_answers (x : RegIdx) (s : State) : ∃ t, transfer x s = .next t := by
  obtain ⟨-, e⟩ | ⟨-, e⟩ := transfer_cases x s <;> exact ⟨_, e⟩

/-- A conditional transfer always answers a next state. -/
theorem branch_answers (taken : Bool) (x : RegIdx) (s : State) : ∃ t, branch taken x s = .next t := by
  cases taken with
  | true => exact transfer_answers x s
  | false => exact ⟨_, rfl⟩

/-- The divider always answers a next state: the result's, or the fault's (R107). -/
theorem divider_answers (f : Int → Int → Int) (x y z : RegIdx) (s : State) : ∃ t, divider f x y z s = .next t := by
  rw [divider]
  split <;> exact ⟨_, rfl⟩

/-- Every instruction answers a next state, but for `in` on an empty open stream (R89, R141). -/
theorem exec_answers (i : Instr) (s : State) :
    (∃ t, exec i s = .next t) ∨ ∃ x, i = .inp x ∧ s.inq = [] ∧ s.inclosed = false := by
  cases i with
  | add | sub | mul | and | or | not | const | sll | halt | out => exact .inl ⟨_, rfl⟩
  | div x y z | mod x y z => exact .inl (divider_answers _ x y z s)
  | goto x => exact .inl (transfer_answers x s)
  | ifeq x | iflt x => exact .inl (branch_answers _ x s)
  | load x y =>
    obtain ⟨-, e⟩ | ⟨-, e⟩ := dataAddr_cases s y <;> rw [exec, execLoad, e] <;> exact .inl ⟨_, rfl⟩
  | store x y =>
    obtain ⟨-, e⟩ | ⟨-, e⟩ := dataAddr_cases s y <;> rw [exec, execStore, e] <;> exact .inl ⟨_, rfl⟩
  | inp x =>
    obtain ⟨w, rest, hq, -⟩ | ⟨hq, hc, -⟩ | ⟨hq, hc, -⟩ := inRead_cases s
    · exact .inl ⟨_, execIn_of_value x hq⟩
    · exact .inl ⟨_, execIn_of_closed x hq hc⟩
    · exact .inr ⟨x, rfl, hq, hc⟩

/-- In a held state there is no step (R89). -/
theorem step_of_held {s : State} (h : Held s) : step s = .fault .inputNotReady := by
  obtain ⟨⟨x, hat⟩, hq, hc⟩ := h
  exact (step_of_atInstr hat).trans (execIn_of_empty_open x hq hc)

/-- A Running engine that is not held has a next state: by the fetch fault, by the unknown opcode fault, or by the
instruction at the pc (R80, R89). -/
theorem step_of_running {s : State} (hrun : Running s) (hheld : ¬ Held s) : ∃ t, step s = .next t := by
  by_cases hpc : InRange s.pc
  · cases hdec : decode (wordAtPc s) with
    | error e =>
      cases e
      exact ⟨_, step_of_decode_error hpc hdec⟩
    | ok i =>
      rw [step_of_atInstr ⟨hpc, hdec⟩]
      obtain hnext | ⟨x, rfl, hq, hc⟩ := exec_answers i s
      · exact hnext
      · exact absurd ⟨⟨x, hpc, hdec⟩, hq, hc⟩ hheld
  · exact ⟨_, step_of_past_last_cell (not_le.mp fun hle => hpc ⟨hrun, hle⟩)⟩

/-- Settles O9: while Running the step answers a next state or, when held, `inputNotReady`. -/
theorem haltedEngineHasNoStep : Obligations.HaltedEngineHasNoStep := by
  refine fun s => ⟨fun h => ?_, step_of_halted⟩
  by_contra hnot
  by_cases hheld : Held s
  · cases h.symm.trans (step_of_held hheld)
  · obtain ⟨t, ht⟩ := step_of_running (not_lt.mp hnot) hheld
    cases h.symm.trans ht

/-- A supplier's move leaves the registers alone (R142). -/
theorem State.supplyInput_readReg (s : State) (w : Word) (r : RegIdx) : (s.supplyInput w).readReg r = s.readReg r := by
  simp only [State.readReg, State.supplyInput_regs]

/-- Settles O12: the supplier's moves keep the `in` at the pc, and give its port a value or the end of the stream. -/
theorem onlyInWithoutInputHolds : Obligations.OnlyInWithoutInputHolds := by
  refine ⟨fun s => step_of_held, fun s => step_of_running, fun s x w hat hq hc => ?_, fun s x hat hq _ => ?_⟩
  · have hat' : AtInstr (s.supplyInput w) (.inp x) := hat.congr (s.supplyInput_pc w) (s.supplyInput_mem w)
    have hq' : (s.supplyInput w).inq = [w] := by rw [State.supplyInput_inq, hc, hq]; rfl
    refine ⟨_, (step_of_atInstr hat').trans (execIn_of_value x hq'), ⟨?_, fun r hr => ?_⟩, ?_, rfl⟩
    · exact State.writeReg_readReg_self _ x w
    · exact (State.writeReg_readReg_other _ x r w hr).trans (s.supplyInput_readReg w r)
    · rw [Advanced, State.advance_pc, State.writeReg_pc, State.supplyInput_pc]
  · have hat' : AtInstr s.closeInput (.inp x) := hat.congr rfl rfl
    exact ⟨_, (step_of_atInstr hat').trans (execIn_of_closed x hq rfl), raise_spec _ _ _⟩

/-! ### The pc update -/

/-- How a completing instruction leaves the pc, with the instructions that do so (R85). -/
theorem Completes.pc_update {s t : State} {i : Instr} (h : Completes s i t) :
    (i ≠ .halt ∧ (∀ x, i ≠ .goto x) ∧ Advanced s t) ∨
      (∃ x, (i = .goto x ∨ ∃ y z, i = .ifeq x y z ∨ i = .iflt x y z) ∧ InRange (s.readReg x) ∧ t.pc = s.readReg x) ∨
      (i = .halt ∧ t.pc = minusOne) := by
  cases h with
  | reg _ x v hw =>
    refine .inl ⟨?_, fun q => ?_, rfl⟩ <;> rintro rfl <;> cases hw
  | input | store | output | ifeqNot | ifltNot => exact .inl ⟨by simp, by simp, rfl⟩
  | goto x hx => exact .inr (.inl ⟨x, .inl rfl, hx, rfl⟩)
  | ifeq x y z hx => exact .inr (.inl ⟨x, .inr ⟨y, z, .inl rfl⟩, hx, rfl⟩)
  | iflt x y z hx => exact .inr (.inl ⟨x, .inr ⟨y, z, .inr rfl⟩, hx, rfl⟩)
  | halt => exact .inr (.inr ⟨rfl, rfl⟩)

/-- The advance from a valid address is one up, without wrapping (R85). -/
theorem signed_pc_of_advanced {s t : State} (hpc : InRange s.pc) (h : Advanced s t) :
    signed t.pc = signed s.pc + 1 := by
  rw [h, signed_advance hpc]

/-- Settles O32: a step enters a fault or completes its instruction, which updates the pc in one of three ways. -/
theorem pcHasThreeUpdates : Obligations.PcHasThreeUpdates := by
  intro s t h
  obtain ⟨c, iw, info, ht⟩ | ⟨i, hat, hdone⟩ := step_faults_or_completes h
  · exact .inr (.inr (.inr ⟨c, iw, info, ht, by rw [ht, State.faultEntry_pc]⟩))
  · obtain ⟨hhalt, hgoto, hadv⟩ | ⟨x, hi, hx, hpc⟩ | ⟨rfl, hpc⟩ := hdone.pc_update
    · exact .inl ⟨i, hat, hhalt, hgoto, hadv⟩
    · exact .inr (.inl ⟨i, x, hat, hi, hx, hpc⟩)
    · exact .inr (.inr (.inl ⟨hat, hpc⟩))

/-- Settles O10: fetch and its range check, and of the pc updates only the advance from cell 65535 passes the last cell. -/
theorem fetchPastLastCellFaults : Obligations.FetchPastLastCellFaults := by
  refine ⟨fun s h => ⟨_, step_of_past_last_cell h, faultEntry_spec s .memory 0#32 s.pc⟩, fun s => fetch_of_inRange,
    fun s t hpc h hpast => ?_⟩
  have hnot (e : t.pc = minusOne) : False := absurd hpast (by rw [e]; decide)
  obtain ⟨c, iw, info, rfl⟩ | ⟨i, -, hdone⟩ := step_faults_or_completes h
  · exact (hnot rfl).elim
  · obtain hadv | ⟨-, hle⟩ | hhalt := hdone.pc_cases
    · have hnext := signed_pc_of_advanced hpc hadv
      obtain ⟨-, hle⟩ := hpc
      omega
    · omega
    · exact (hnot hhalt).elim

/-! ### The two ways a run ends -/

/-- An instruction other than `halt` that completes leaves the engine Running (R15, R86). -/
theorem Completes.running {s t : State} {i : Instr} (h : Completes s i t) (hpc : InRange s.pc) (hi : i ≠ .halt) :
    Running t := by
  obtain ⟨-, -, hadv⟩ | ⟨x, -, hx, htarget⟩ | ⟨rfl, -⟩ := h.pc_update
  · have hnext := signed_pc_of_advanced hpc hadv
    obtain ⟨h0, -⟩ := hpc
    rw [Running]
    omega
  · rw [Running, htarget]
    exact hx.1
  · exact absurd rfl hi

/-- Settles O41: a fault records a cause, and of the completing instructions only `halt` stops the engine. -/
theorem runEndsNormallyOnlyByHalt : Obligations.RunEndsNormallyOnlyByHalt := by
  refine fun s t h0 h => ⟨fun ⟨hhalted, hcause⟩ => ?_, fun hat => ?_⟩
  · obtain ⟨c, iw, info, rfl⟩ | ⟨i, hat, hdone⟩ := step_faults_or_completes h
    · exact absurd hcause (code_ne_zero c)
    · obtain rfl | hi := eq_or_ne i .halt
      · exact hat
      · exact absurd hhalted (not_lt.mpr (hdone.running hat.1 hi))
  · cases (step_of_atInstr hat).symm.trans h
    exact ⟨by rw [Halted, State.haltEngine_pc]; decide, h0⟩

end Sys2Proof.Machine
end

section
/-! Arithmetic: the five instructions, wrap-around of the exact result and the division law (rules R100 to R107 of
spec/41_arithmetic.md). -/

namespace Sys2Proof.Machine

/-! ### The two shared bodies -/

/-- The body of `add`, `sub` and `mul` always completes with the narrowed exact result (R100 to R102). -/
theorem wrapping_spec (f : Int → Int → Int) (x y z : RegIdx) (s : State) :
    ∃ t, wrapping f x y z s = .next t ∧
      WritesRegister x (word (f (signed (s.readReg y)) (signed (s.readReg z)))) s t := writeBack_spec x _ s

/-- The body of `div` and `mod`: the narrowed exact result, or ArithmeticFault(R[z]) (R103, R104, R107). -/
theorem divider_spec (f : Int → Int → Int) (x y z : RegIdx) (s : State) :
    (signed (s.readReg z) ≠ 0 → ¬ (signed (s.readReg y) = -2147483648 ∧ signed (s.readReg z) = -1) →
      ∃ t, divider f x y z s = .next t ∧
        WritesRegister x (word (f (signed (s.readReg y)) (signed (s.readReg z)))) s t) ∧
    (signed (s.readReg z) = 0 ∨ (signed (s.readReg y) = -2147483648 ∧ signed (s.readReg z) = -1) →
      ∃ t, divider f x y z s = .next t ∧ TakesFault 2#3 (wordAtPc s) (s.readReg z) s t) := by
  have hiff := divFaults_iff (s.readReg y) (s.readReg z)
  refine ⟨fun hzero hover => ?_, fun hfault => ⟨_, if_pos (hiff.mpr hfault), raise_spec s .arithmetic (s.readReg z)⟩⟩
  rw [divider, if_neg fun hfault => (hiff.mp hfault).elim hzero hover]
  exact wrapping_spec f x y z s

/-- What a divider that completes leaves in its destination. -/
theorem divider_readReg {f : Int → Int → Int} {x y z : RegIdx} {s t : State}
    (hzero : signed (s.readReg z) ≠ 0)
    (hover : ¬ (signed (s.readReg y) = -2147483648 ∧ signed (s.readReg z) = -1))
    (h : divider f x y z s = .next t) :
    t.readReg x = word (f (signed (s.readReg y)) (signed (s.readReg z))) := by
  obtain ⟨u, hu, ⟨hdest, -⟩, -⟩ := (divider_spec f x y z s).1 hzero hover
  cases hu.symm.trans h
  exact hdest

/-! ### The five instructions -/

/-- Settles O13: the wrapping body with the sum. -/
theorem addWritesWrappedSum : Obligations.AddWritesWrappedSum :=
  ⟨fun x y z low => decode_of_agrees (i := .add x y z) (wordXYZ_above 1#5 x y z low), wrapping_spec _⟩

/-- Settles O14: the wrapping body with the difference. -/
theorem subWritesWrappedDifference : Obligations.SubWritesWrappedDifference :=
  ⟨fun x y z low => decode_of_agrees (i := .sub x y z) (wordXYZ_above 2#5 x y z low), wrapping_spec _⟩

/-- Settles O15: the wrapping body with the product. -/
theorem mulWritesLowProduct : Obligations.MulWritesLowProduct :=
  ⟨fun x y z low => decode_of_agrees (i := .mul x y z) (wordXYZ_above 3#5 x y z low), wrapping_spec _⟩

/-- Settles O16: the divider with the quotient. -/
theorem divWritesTruncatedQuotient : Obligations.DivWritesTruncatedQuotient :=
  ⟨fun x y z low => decode_of_agrees (i := .div x y z) (wordXYZ_above 4#5 x y z low), divider_spec quotient⟩

/-- Settles O17: the divider with the remainder. -/
theorem modWritesRemainder : Obligations.ModWritesRemainder :=
  ⟨fun x y z low => decode_of_agrees (i := .mod x y z) (wordXYZ_above 5#5 x y z low), divider_spec remainder⟩

/-! ### The division law -/

/-- The quotient of two Words fits in a Word, but for −2^31 by −1 (R106). -/
theorem signed_word_quotient {a b : Word} (hover : ¬ (signed a = -2147483648 ∧ signed b = -1)) :
    signed (word (quotient (signed a) (signed b))) = quotient (signed a) (signed b) := by
  have hne : a ≠ BitVec.intMin 32 ∨ b ≠ -1#32 := by
    rw [← not_and_or]
    rintro ⟨rfl, rfl⟩
    exact hover (by decide)
  have hfits : signed (a.sdiv b) = quotient (signed a) (signed b) := BitVec.toInt_sdiv_of_ne_or_ne a b hne
  rw [← hfits, word, BitVec.ofInt_toInt]

/-- The remainder is the one that goes with division rounded toward zero (R106). -/
theorem remainder_eq_tmod (a b : Int) : remainder a b = Int.tmod a b := by
  rw [remainder, quotient, Int.tmod_def, Int.mul_comm]

/-- The remainder of two Words fits in a Word (R106). -/
theorem signed_word_remainder (a b : Word) :
    signed (word (remainder (signed a) (signed b))) = remainder (signed a) (signed b) := by
  have hfits : signed (a.srem b) = remainder (signed a) (signed b) := by
    rw [remainder_eq_tmod]
    exact BitVec.toInt_srem a b
  rw [← hfits, word, BitVec.ofInt_toInt]

/-- The remainder is smaller than the divisor (R106). -/
theorem natAbs_remainder_lt (a : Int) {b : Int} (hb : b ≠ 0) : (remainder a b).natAbs < b.natAbs := by
  rw [remainder_eq_tmod, Int.natAbs_tmod]
  exact Nat.mod_lt _ (Int.natAbs_pos.mpr hb)

/-- The remainder is 0 or has the sign of the dividend (R106). -/
theorem remainder_sign (a b : Int) : remainder a b = 0 ∨ (0 < remainder a b ↔ 0 < a) := by
  have hsign := Int.sign_tmod a b
  rw [← remainder_eq_tmod] at hsign
  by_cases hdvd : b ∣ a
  · rw [if_pos hdvd] at hsign
    exact .inl (Int.sign_eq_zero_iff_zero.mp hsign)
  · rw [if_neg hdvd] at hsign
    exact .inr (by rw [← Int.sign_eq_one_iff_pos, hsign, Int.sign_eq_one_iff_pos])

/-- Settles O18: neither result wraps, so both read back as the exact quotient and remainder. -/
theorem quotientAndRemainderLaw : Obligations.QuotientAndRemainderLaw := by
  intro x x' y z s t t' hzero hover hdiv hmod
  rw [divider_readReg hzero hover hdiv, divider_readReg hzero hover hmod, signed_word_quotient hover,
    signed_word_remainder]
  refine ⟨rfl, ?_, natAbs_remainder_lt _ hzero, remainder_sign _ _⟩
  rw [remainder]
  omega

/-! ### Wrap-around -/

/-- The Word of the unsigned reading (R6). -/
theorem word_unsigned (v : Word) : word (unsigned v : Int) = v := by
  rw [word, BitVec.ofInt_natCast, BitVec.ofNat_toNat, BitVec.setWidth_eq]

/-- Narrowing commutes with subtraction (R105). -/
theorem word_sub (m n : Int) : word (m - n) = word m - word n := by
  rw [word, Int.sub_eq_add_neg, BitVec.ofInt_add, BitVec.ofInt_neg, BitVec.sub_eq_add_neg]

/-- An operation that commutes with narrowing gives the same Word from either reading of its operands (R105). -/
theorem word_signed_eq_word_unsigned {f : Int → Int → Int} {g : Word → Word → Word}
    (hg : ∀ m n, word (f m n) = g (word m) (word n)) (a b : Word) :
    word (f (signed a) (signed b)) = word (f (unsigned a) (unsigned b)) := by
  rw [hg, hg, word_unsigned, word_unsigned]
  simp only [BitVec.ofInt_toInt]

/-- The wrapping body with such an operation: the same result from either reading, and no fault (R105). -/
theorem wrapping_either_reading {f : Int → Int → Int} {g : Word → Word → Word}
    (hg : ∀ m n, word (f m n) = g (word m) (word n)) (x y z : RegIdx) (s : State) :
    ∃ t, wrapping f x y z s = .next t ∧ t.readReg x = word (f (signed (s.readReg y)) (signed (s.readReg z))) ∧
      t.readReg x = word (f (unsigned (s.readReg y)) (unsigned (s.readReg z))) ∧ SameFaultStatus s t := by
  obtain ⟨t, ht, ⟨hdest, -⟩, -, -, hfault, -⟩ := wrapping_spec f x y z s
  exact ⟨t, ht, hdest, hdest.trans (word_signed_eq_word_unsigned hg _ _), hfault⟩

/-- Settles O19: sum, difference and product commute with narrowing. -/
theorem wrapIsTheSameUnsigned : Obligations.WrapIsTheSameUnsigned := fun x y z s =>
  ⟨wrapping_either_reading BitVec.ofInt_add x y z s, wrapping_either_reading word_sub x y z s,
    wrapping_either_reading BitVec.ofInt_mul x y z s⟩

end Sys2Proof.Machine
end

section
/-! Logic, constant and shift: the five instructions that always write one register (rules R110 to R114 of
spec/42_logic_const_shift.md). -/

namespace Sys2Proof.Machine

/-! ### The values written -/

/-- The immediate is the Word of its number, under both readings (R113). -/
theorem immediate_eq_ofNat (c : Imm22) :
    immediate c = BitVec.ofNat 32 c.toNat ∧ unsigned (immediate c) = c.toNat ∧ signed (immediate c) = c.toNat := by
  have hunsigned : unsigned (immediate c) = c.toNat := BitVec.toNat_setWidth_of_le (by decide)
  have hc := c.isLt
  have hsmall : 2 * unsigned (immediate c) < 2 ^ 32 := by omega
  exact ⟨(BitVec.ofNat_toNat 32 c).symm, hunsigned,
    (BitVec.toInt_eq_toNat_of_lt hsmall).trans (congrArg Nat.cast hunsigned)⟩

/-- Shifting multiplies the unsigned reading by a power of two, modulo 2^32 (R114). -/
theorem shiftLeft_eq_ofNat (a : Word) (n : Nat) : shiftLeft a n = BitVec.ofNat 32 (unsigned a * 2 ^ n) :=
  BitVec.ofInt_natCast 32 _

/-- Bit k of the shifted word is bit k - n of the operand, or a zero that entered (R114). -/
theorem shiftLeft_getLsbD (a : Word) (n : Nat) {k : Nat} (hk : k < 32) :
    (shiftLeft a n).getLsbD k = (decide (n ≤ k) && a.getLsbD (k - n)) := by
  have hshift : shiftLeft a n = a <<< n := by
    rw [shiftLeft_eq_ofNat, ← Nat.shiftLeft_eq]
    rfl
  rw [hshift, BitVec.getLsbD_shiftLeft, decide_eq_true hk, Bool.true_and, ← decide_not]
  simp only [Nat.not_lt]

/-! ### The instructions -/

/-- Writing back completes, and what holds of the value holds of the destination afterwards. -/
theorem writeBack_spec_of {P : Word → Prop} {v : Word} (hv : P v) (x : RegIdx) (s : State) :
    ∃ t, writeBack x v s = .next t ∧ WritesRegister x v s t ∧ P (t.readReg x) := by
  obtain ⟨t, ht, hwrites⟩ := writeBack_spec x v s
  have ⟨⟨hdest, _⟩, _⟩ := hwrites
  exact ⟨t, ht, hwrites, hdest ▸ hv⟩

/-- The same for a value that is given bit by bit. -/
theorem writeBack_spec_bits {f : Nat → Bool} {v : Word} (hv : ∀ k < 32, v.getLsbD k = f k) (x : RegIdx) (s : State) :
    ∃ t, writeBack x v s = .next t ∧ WritesRegister x v s t ∧ ∀ k < 32, (t.readReg x).getLsbD k = f k :=
  writeBack_spec_of (P := fun w => ∀ k < 32, w.getLsbD k = f k) hv x s

/-- Settles O20: the bits of the conjunction. -/
theorem andWritesBitwiseAnd : Obligations.AndWritesBitwiseAnd :=
  ⟨fun x y z low => decode_of_agrees (i := .and x y z) (wordXYZ_above 6#5 x y z low), fun x _ _ s =>
    writeBack_spec_bits (fun _ _ => BitVec.getLsbD_and) x s⟩

/-- Settles O21: the bits of the disjunction. -/
theorem orWritesBitwiseOr : Obligations.OrWritesBitwiseOr :=
  ⟨fun x y z low => decode_of_agrees (i := .or x y z) (wordXYZ_above 7#5 x y z low), fun x _ _ s =>
    writeBack_spec_bits (fun _ _ => BitVec.getLsbD_or) x s⟩

/-- Settles O22: the body is the write of the truth value. -/
theorem notWritesTruthValue : Obligations.NotWritesTruthValue :=
  ⟨fun x y low => decode_of_agrees (i := .not x y) (wordXY_above 8#5 x y low), fun x y s =>
    writeBack_spec x (logicalNot (s.readReg y)) s⟩

/-- Settles O23: the immediate is zero-extended, so no reading changes it. -/
theorem constWritesZeroExtended : Obligations.ConstWritesZeroExtended := by
  refine ⟨fun x c => decode_encode (.const x c), fun x c s => ?_⟩
  obtain ⟨himm, hreadings⟩ := immediate_eq_ofNat c
  rw [← himm]
  exact writeBack_spec_of (P := fun w => unsigned w = c.toNat ∧ signed w = c.toNat) hreadings x s

/-- Settles O24: the product is a shift, whose bits are known. -/
theorem sllWritesShiftedWord : Obligations.SllWritesShiftedWord := by
  refine ⟨fun x y sh low => decode_of_agrees (i := .sll x y sh) (wordXYZ_above 10#5 x y sh low), fun x y sh s => ?_⟩
  rw [← shiftLeft_eq_ofNat]
  exact writeBack_spec_bits (fun _ => shiftLeft_getLsbD _ _) x s

end Sys2Proof.Machine
end

section
/-! Load and store: the two instructions that access the cell at the address in a register (rules R120 to R122 of
spec/43_load_store.md). -/

namespace Sys2Proof.Machine

/-! ### The address -/

/-- A content in range is the data address, unchanged (R122). -/
theorem dataAddr_of_inRange {s : State} {y : RegIdx} (h : InRange (s.readReg y)) :
    dataAddr s y = some (s.readReg y) := if_pos ((validAddr_iff _).mpr h)

/-- A content out of range is no data address (R122). -/
theorem dataAddr_of_not_inRange {s : State} {y : RegIdx} (h : ¬ InRange (s.readReg y)) :
    dataAddr s y = none := if_neg fun hvalid => h ((validAddr_iff _).mp hvalid)

/-! ### The two bodies, at an address in range and at one out of range -/

/-- At a valid address `load` writes back the content of the addressed cell (R120). -/
theorem exec_load_of_inRange {x y : RegIdx} {s : State} (h : InRange (s.readReg y)) :
    exec (.load x y) s = writeBack x (s.memRead (s.readReg y)) s := by
  rw [exec, execLoad, dataAddr_of_inRange h]

/-- At an invalid address `load` takes MemoryFault before any access (R122). -/
theorem exec_load_of_not_inRange {x y : RegIdx} {s : State} (h : ¬ InRange (s.readReg y)) :
    exec (.load x y) s = .next (s.raise .memory (s.readReg y)) := by
  rw [exec, execLoad, dataAddr_of_not_inRange h]

/-- At a valid address `store` writes the addressed cell and advances (R121). -/
theorem exec_store_of_inRange {x y : RegIdx} {s : State} (h : InRange (s.readReg y)) :
    exec (.store x y) s = .next (s.memWrite (s.readReg y) (s.readReg x)).advance := by
  rw [exec, execStore, dataAddr_of_inRange h]

/-- At an invalid address `store` takes MemoryFault before any access (R122). -/
theorem exec_store_of_not_inRange {x y : RegIdx} {s : State} (h : ¬ InRange (s.readReg y)) :
    exec (.store x y) s = .next (s.raise .memory (s.readReg y)) := by
  rw [exec, execStore, dataAddr_of_not_inRange h]

/-- All that a memory write does to memory: one cell, whatever the address (R32). -/
theorem State.memWrite_onlyCellWritten (s : State) (v w : Word) : OnlyCellWritten (cellOf v) w s (s.memWrite v w) :=
  ⟨Memory.read_write_self _ _ _, fun b hb => Memory.read_write_other _ _ b _ hb⟩

/-! ### The two instructions -/

/-- Settles O25: the write-back of the addressed cell, or the raise. -/
theorem loadReadsAddressedCell : Obligations.LoadReadsAddressedCell := by
  refine ⟨fun x y low => decode_of_agrees (i := .load x y) (wordXY_above 11#5 x y low),
    fun x y s => ⟨fun hrange => ?completes, fun hout => ?faults⟩⟩
  case completes =>
    rw [exec_load_of_inRange hrange]
    exact writeBack_spec x (s.memRead (s.readReg y)) s
  case faults => exact ⟨_, exec_load_of_not_inRange hout, raise_spec s .memory (s.readReg y)⟩

/-- Settles O26: the write of the addressed cell, with everything outside memory but the pc kept, or the raise. -/
theorem storeWritesAddressedCell : Obligations.StoreWritesAddressedCell := by
  refine ⟨fun x y low => decode_of_agrees (i := .store x y) (wordXY_above 12#5 x y low),
    fun x y s => ⟨fun hrange => ?completes, fun hout => ?faults⟩⟩
  case completes =>
    have hcell : OnlyCellWritten (cellOf (s.readReg y)) (s.readReg x) s
        (s.memWrite (s.readReg y) (s.readReg x)).advance := s.memWrite_onlyCellWritten _ _
    exact ⟨_, exec_store_of_inRange hrange, hcell, rfl, fun _ => rfl, ⟨rfl, rfl, rfl, rfl⟩, ⟨rfl, rfl⟩, rfl⟩
  case faults => exact ⟨_, exec_store_of_not_inRange hout, raise_spec s .memory (s.readReg y)⟩

end Sys2Proof.Machine
end

section
/-! Control flow: the four instructions whose own body writes the pc (rules R130 to R134 of spec/44_control_flow.md). -/

namespace Sys2Proof.Machine

/-! ### The frame of a pc write, and the shared bodies -/

/-- All that a write of the pc does (R7). -/
theorem setPc_spec (s : State) (p : Word) : OnlyPcWritten p s (s.setPc p) :=
  ⟨rfl, fun _ => rfl, fun _ => rfl, ⟨rfl, rfl, rfl, rfl⟩, ⟨rfl, rfl⟩, rfl⟩

/-- A transfer writes R[x] to the pc or takes MemoryFault(R[x]), as the range check on R[x] says (R134). -/
theorem transfer_spec (x : RegIdx) (s : State) :
    (InRange (s.readReg x) → ∃ t, transfer x s = .next t ∧ OnlyPcWritten (s.readReg x) s t) ∧
    (¬ InRange (s.readReg x) →
      ∃ t, transfer x s = .next t ∧ TakesFault 3#3 (wordAtPc s) (s.readReg x) s t) := by
  obtain ⟨hrange, e⟩ | ⟨hout, e⟩ := transfer_cases x s
  · exact ⟨fun _ => ⟨_, e, setPc_spec s (s.readReg x)⟩, fun hout => absurd hrange hout⟩
  · exact ⟨fun hrange => absurd hrange hout, fun _ => ⟨_, e, raise_spec s .memory (s.readReg x)⟩⟩

/-- A branch is a transfer when its condition holds; otherwise it advances, whatever R[x] holds (R134). -/
theorem branch_spec (P : Prop) [Decidable P] (x : RegIdx) (s : State) :
    (P → InRange (s.readReg x) → ∃ t, branch (decide P) x s = .next t ∧ OnlyPcWritten (s.readReg x) s t) ∧
    (P → ¬ InRange (s.readReg x) →
      ∃ t, branch (decide P) x s = .next t ∧ TakesFault 3#3 (wordAtPc s) (s.readReg x) s t) ∧
    (¬ P → ∃ t, branch (decide P) x s = .next t ∧ OnlyPcWritten (word (signed s.pc + 1)) s t) := by
  have htaken (hP : P) : branch (decide P) x s = transfer x s := if_pos (decide_eq_true hP)
  have hnot (hP : ¬ P) : branch (decide P) x s = .next s.advance := if_neg (by simpa using hP)
  obtain ⟨hcompletes, hfaults⟩ := transfer_spec x s
  refine ⟨fun hP => ?taken, fun hP => ?faults, fun hP => ⟨_, hnot hP, setPc_spec s _⟩⟩
  case taken => rwa [htaken hP]
  case faults => rwa [htaken hP]

/-! ### The four instructions -/

/-- Settles O28: the body is the transfer. -/
theorem gotoSetsPc : Obligations.GotoSetsPc :=
  ⟨fun x low => decode_of_agrees (i := .goto x) (wordX_above 13#5 x low), transfer_spec⟩

/-- Settles O29: the branch on equality of the two Words. -/
theorem ifeqBranchesOnEqual : Obligations.IfeqBranchesOnEqual :=
  ⟨fun x y z low => decode_of_agrees (i := .ifeq x y z) (wordXYZ_above 14#5 x y z low), fun x y z s =>
    branch_spec (s.readReg y = s.readReg z) x s⟩

/-- Settles O30: the branch on the signed comparison of the two Words. -/
theorem ifltBranchesOnSignedLess : Obligations.IfltBranchesOnSignedLess :=
  ⟨fun x y z low => decode_of_agrees (i := .iflt x y z) (wordXYZ_above 15#5 x y z low), fun x y z s =>
    branch_spec (signed (s.readReg y) < signed (s.readReg z)) x s⟩

/-- Settles O31: the pc it writes is that of the Halted engine, which has no step. -/
theorem haltStopsTheEngine : Obligations.HaltStopsTheEngine := by
  refine ⟨fun low => decode_of_agrees (i := .halt) (wordOp_above 16#5 low), fun s => ?_⟩
  have hpc : signed s.haltEngine.pc = -1 := by
    rw [State.haltEngine_pc]
    decide
  have hhalted : Halted s.haltEngine := by
    rw [Halted, hpc]
    decide
  exact ⟨_, rfl, setPc_spec s minusOne, hpc, step_of_halted hhalted⟩

end Sys2Proof.Machine
end

section
/-! Input and output: the port's answers, `in` and `out`, and the moves from outside under the invariant (rules R140 to R144
of spec/45_io.md, R180 to R185 of spec/70_reset_and_hazards.md). -/

namespace Sys2Proof.Machine

/-! ### The invariant under the moves from outside -/

/-- The invariant looks at the pc, at memory and at the fault-status registers alone. -/
theorem Inv.congr {s t : State} (hi : Inv s) (hpc : t.pc = s.pc) (hmem : t.mem = s.mem) (hfault : SameFaultStatus s t) :
    Inv t := by
  obtain ⟨hmem_wf, hpc_legal, hrecord, hhalts⟩ := hi
  obtain ⟨hcause, hfpc, hinstr, hinfo⟩ := hfault
  refine ⟨by rwa [hmem], by rwa [hpc], ?_, by rwa [hcause, hpc]⟩
  simpa only [LegalFaultRecord, RecordAtCell, hcause, hfpc, hinstr, hinfo, hmem] using hrecord

/-- Settles O46: the supplier moves only the input stream, and a reset clears the record that a load could falsify. -/
theorem outsideMovesKeepInv : Obligations.OutsideMovesKeepInv := by
  refine fun s hi => ⟨fun w => ?supply, ?close, Inv.resetEvent hi.memory, fun _ _ _ => Inv.loadProgram_resetEvent hi.memory⟩
  case supply =>
    exact hi.congr (s.supplyInput_pc w) (s.supplyInput_mem w)
      ⟨s.supplyInput_fcause w, s.supplyInput_fpc w, s.supplyInput_finstr w, s.supplyInput_finfo w⟩
  case close => exact hi.congr rfl rfl ⟨rfl, rfl, rfl, rfl⟩

/-! ### The input port -/

/-- A waiting value is the answer, and it alone is consumed (R142). -/
theorem State.inRead_of_value {s : State} {w : Word} {rest : List Word} (hq : s.inq = w :: rest) :
    s.inRead = (.value w, { s with inq := rest }) := by
  rw [State.inRead, hq]

/-- An exhausted and closed stream answers `Closed` (R142). -/
theorem State.inRead_of_closed {s : State} (hq : s.inq = []) (hc : s.inclosed = true) : s.inRead = (.closed, s) := by
  rw [State.inRead, hq, hc]
  rfl

/-- An empty open stream answers `NotReady` (R142). -/
theorem State.inRead_of_empty_open {s : State} (hq : s.inq = []) (hc : s.inclosed = false) :
    s.inRead = (.notReady, s) := by
  rw [State.inRead, hq, hc]
  rfl

/-- A Word that arrives on an open stream is the last of the queue (R142). -/
theorem State.supplyInput_of_open {s : State} (w : Word) (hc : s.inclosed = false) :
    s.supplyInput w = { s with inq := s.inq ++ [w] } := if_neg (Bool.eq_false_iff.mp hc)

/-- Nothing arrives on a closed stream (R142). -/
theorem State.supplyInput_of_closed {s : State} (w : Word) (hc : s.inclosed = true) : s.supplyInput w = s := if_pos hc

/-- No step opens or closes the input stream (R142). -/
theorem step_inclosed {s t : State} (h : step s = .next t) : t.inclosed = s.inclosed := by
  obtain ⟨-, -, hclosed⟩ := streamsMoveInOrder s t h
  exact hclosed

/-- Settles O33: the answers and the supplier's moves case by case; the stream's end is the supplier's alone. -/
theorem inputPortAnswers : Obligations.InputPortAnswers := by
  refine ⟨fun s w rest hq => ?value, fun s => State.inRead_of_closed, fun s => State.inRead_of_empty_open,
    fun s => State.supplyInput_of_open, fun s => State.supplyInput_of_closed, fun s => rfl,
    fun s t hc h => (step_inclosed h).trans hc⟩
  case value =>
    rw [State.inRead_of_value hq]
    exact ⟨rfl, rfl⟩

/-! ### The two instructions -/

/-- Settles O34: a write-back over the state without the head of the queue, the raise, or the hold. -/
theorem inReceivesNextWord : Obligations.InReceivesNextWord := by
  refine ⟨fun x low => decode_of_agrees (i := .inp x) (wordX_above 17#5 x low),
    fun x s => ⟨fun w rest hq => ?value, fun hq hc => ?closed, execIn_of_empty_open x⟩⟩
  case value =>
    obtain ⟨t, ht, hreg, hadvanced, hmem, hfault, ⟨hinq, hclosed⟩, hout⟩ := writeBack_spec x w { s with inq := rest }
    exact ⟨t, (execIn_of_value x hq).trans ht, hreg, hadvanced, hmem, hfault, hinq, hclosed, hout⟩
  case closed => exact ⟨_, execIn_of_closed x hq hc, raise_spec s .io 0#32⟩

/-- The byte that `out` passes on is the content modulo 256: bits 31:8 are discarded (R144). -/
theorem lowByte_eq_ofNat (v : Word) : v.extractLsb' 0 8 = BitVec.ofNat 8 (unsigned v % 256) := by
  apply BitVec.eq_of_toNat_eq
  rw [BitVec.extractLsb'_toNat, BitVec.toNat_ofNat, Nat.shiftRight_zero, Nat.mod_mod]

/-- Settles O35: the byte appended is the low one, and besides the output stream only the pc moves. -/
theorem outAppendsLowByte : Obligations.OutAppendsLowByte := by
  refine ⟨fun x low => decode_of_agrees (i := .out x) (wordX_above 18#5 x low), fun x s => ?_⟩
  rw [← lowByte_eq_ofNat]
  exact ⟨_, rfl, rfl, rfl, fun _ => rfl, fun _ => rfl, ⟨rfl, rfl, rfl, rfl⟩, rfl, rfl⟩

end Sys2Proof.Machine
end

section
/-! Exceptions: what a fault records, and that a recorded fault stops the engine for good (rules R152, R156, R157 and R160 of
spec/60_exceptions.md). -/

namespace Sys2Proof.Machine

/-! ### The engine after a fault -/

/-- The pc value −1, which fault entry writes, is a pc of the Halted engine (R14, R156). -/
theorem halted_of_pc_eq {s : State} (h : s.pc = 0xFFFFFFFF#32) : Halted s := by
  rw [Halted, h]
  decide

/-- Settles O42: under the invariant a record means pc = −1, and the Halted engine has no step. -/
theorem recordedFaultIsFinal : Obligations.RecordedFaultIsFinal := by
  intro s hi hrecorded
  have hhalted : Halted s := halted_of_pc_eq (hi.halts hrecorded)
  exact ⟨⟨hhalted, hrecorded⟩, step_of_halted hhalted⟩

/-! ### The unknown opcode -/

/-- The info word of UnknownOpcodeFault, zext_32(op), is the opcode number as a Word (R84, R152). -/
theorem zeroExtend_op_eq_ofNat (iw : Word) :
    (fields iw).op.zeroExtend 32 = BitVec.ofNat 32 (opcodeNumber iw) := by
  rw [BitVec.zeroExtend, ← BitVec.ofNat_toNat, fields_op_toNat]

/-- Settles O11: decoding refuses the word with its own opcode, and the step raises the fault that carries it. -/
theorem unassignedOpcodeFaults : Obligations.UnassignedOpcodeFaults := by
  intro s hpc hop
  rw [← zeroExtend_op_eq_ofNat]
  exact ⟨_, step_of_decode_error hpc (decode_unassigned hop), raise_spec s .unknownOpcode _⟩

/-! ### Precise faults -/

/-- Settles O37: a new record is that of a fetch fault, which has no word, or of a raise, which records the word at the pc; a
completing instruction records nothing. -/
theorem recordedFaultsArePrecise : Obligations.RecordedFaultsArePrecise := by
  intro s t h0 h hrecorded
  obtain ⟨hrun, ⟨hpc, rfl⟩ | ⟨op, -, -, rfl⟩ | ⟨i, -, hexec⟩⟩ := step_cases h
  · have hpast : 65535 < signed s.pc := not_le.mp fun hle => hpc ⟨hrun, hle⟩
    exact ⟨faultEntry_spec s .memory 0#32 s.pc, .inr ⟨hpast, rfl⟩, halted_of_pc_eq rfl⟩
  · exact ⟨raise_spec s .unknownOpcode _, .inl rfl, halted_of_pc_eq rfl⟩
  · obtain hdone | ⟨c, info, -, rfl⟩ := exec_cases hexec
    · obtain ⟨hcause, -⟩ := hdone.sameFaultStatus
      exact absurd (hcause.trans h0) hrecorded
    · exact ⟨raise_spec s c info, .inl rfl, halted_of_pc_eq rfl⟩

end Sys2Proof.Machine
end

section
/-! Reset and loading, each applied in any state (rules R180, R184 and R185 of spec/70_reset_and_hazards.md). -/

namespace Sys2Proof.Machine

/-! ### Reset -/

/-- Reset leaves the engine Running, whatever state it was in: its pc is 0 (R180, R183). -/
theorem State.resetEvent_running (s : State) (regReset : Nat → Word) : Running (s.resetEvent regReset) := by
  rw [Running, State.resetEvent_pc]
  decide

/-- Settles O49: each field is the one that reset writes, and pc = 0 is a pc of the Running engine. -/
theorem resetRestoresStart : Obligations.ResetRestoresStart := fun s regReset =>
  ⟨State.resetEvent_pc s regReset, State.resetEvent_fcause s regReset, State.resetEvent_fpc s regReset,
    State.resetEvent_finstr s regReset, State.resetEvent_finfo s regReset, State.resetEvent_readReg s regReset,
    fun a => congrArg (·.read a) (State.resetEvent_mem s regReset), State.resetEvent_running s regReset⟩

/-! ### Loading -/

/-- A program longer than memory cannot be loaded (R184). -/
theorem loadProgram_of_too_long (s : State) {program : List Word} (h : Config.memWords < program.length) :
    s.loadProgram program = none := if_neg (Nat.not_le.mpr h)

/-- A cell below the length of the image holds the image's Word (R185). -/
theorem Memory.read_image_of_lt (m : Memory) {program : List Word} {k : Nat} (h : k < program.length) :
    (m.writeList 0 program).read k = program[k] := by
  simp [Memory.read_writeList, h]

/-- A cell from the length of the image on keeps its content (R185). -/
theorem Memory.read_image_of_le (m : Memory) {program : List Word} {k : Nat} (h : program.length ≤ k) :
    (m.writeList 0 program).read k = m.read k := by
  simp [Memory.read_writeList, Nat.not_lt.mpr h]

/-- Settles O50: a load that fits replaces the memory alone, and each cell lies inside the image or past it. -/
theorem loadingWritesTheImage : Obligations.LoadingWritesTheImage := by
  refine ⟨fun s _ htoolong => loadProgram_of_too_long s htoolong, fun s program hfits => ?_⟩
  exact ⟨_, loadProgram_of_fits s hfits, fun _ hk => s.mem.read_image_of_lt hk, fun _ hk => s.mem.read_image_of_le hk,
    rfl, fun _ => rfl, ⟨rfl, rfl, rfl, rfl⟩, ⟨⟨rfl, rfl⟩, rfl⟩⟩

end Sys2Proof.Machine
end
